-- ==== Sys2Proof/Word.lean ====
section
/-! DEFINITION. The two word types of the block: 32-bit registers and command words, 8-bit buffer bytes (R8). -/

namespace Sys2Proof

/-- A register value or a command word: 32 bits (R8, R21, R22, R60). -/
abbrev Word := BitVec 32

/-- A buffer byte: 8 bits (R8, R27). -/
abbrev Byte := BitVec 8

end Sys2Proof
end

