-- ==== Sys2Proof/Syntax.lean ====
section
/-! DEFINITION. The command set BPC-1: one constructor for each row of the opcode table (R2, R62). -/

namespace Sys2Proof

/-- A command, with the two numbers its word carries: `nlsb` (NLSB, the source's num_lsb) and `bdepth` (BDEPTH, byte_depth).
They are natural numbers, as in the rules (R9); WellFormed bounds them by their 8-bit fields (R61; log entry 14). -/
inductive Instr where
  /-- `ILV n, bd`: interleave, full-length result (R76). -/
  | ilv (nlsb bdepth : Nat)
  /-- `ILVT n, bd`: interleave, truncated result (R77). -/
  | ilvt (nlsb bdepth : Nat)
  /-- `DLV n, bd`: deinterleave (R86). -/
  | dlv (nlsb bdepth : Nat)
  /-- `HIDE n, bd`: frame the payload and interleave it (R98). -/
  | hide (nlsb bdepth : Nat)
  /-- `RCV n, bd`: parse and check the size tag, deinterleave the payload (R101). -/
  | rcv (nlsb bdepth : Nat)
  deriving DecidableEq, Repr

/-- The NLSB operand (R64). -/
def Instr.nlsb : Instr → Nat
  | .ilv n _ => n
  | .ilvt n _ => n
  | .dlv n _ => n
  | .hide n _ => n
  | .rcv n _ => n

/-- The BDEPTH operand (R65). -/
def Instr.bdepth : Instr → Nat
  | .ilv _ bd => bd
  | .ilvt _ bd => bd
  | .dlv _ bd => bd
  | .hide _ bd => bd
  | .rcv _ bd => bd

end Sys2Proof
end

