-- ==== Sys2Proof/WellFormed.lean ====
section
/-! DEFINITION. Which terms of Instr stand for a command word: both operands fit their 8-bit fields (R61, R71). -/

namespace Sys2Proof

/-- NLSB fits its field, bits 15:8: any value 0 to 255, the ones the block refuses later included (R61, R64, R68, R71). -/
def Instr.nlsbFits (i : Instr) : Bool := decide (i.nlsb < 256)

/-- BDEPTH fits its field, bits 23:16: any value 0 to 255 (R61, R65, R68, R71). -/
def Instr.bdepthFits (i : Instr) : Bool := decide (i.bdepth < 256)

/-- A well-formed command: both operands can be written in the command word. -/
def Instr.WellFormed (i : Instr) : Bool := i.nlsbFits && i.bdepthFits

end Sys2Proof
end

