-- ==== Sys2Proof/Decode.lean ====
section
/-! DEFINITION. The command word: its fields (R61), the decoder (R70), the encoder (R61, R71), and the decoder in the opcode
table's own terms. -/

namespace Sys2Proof

/-- Why a word is no command (R67). Each of these is the one outcome `Illegal` of R70: the block does not tell them apart. -/
inductive Illegal where
  /-- RSV1 or RSV0 is not zero. -/
  | reservedField
  /-- OP is none of 1, 2, 3, 4. -/
  | reservedOperation
  /-- T = 1 with OP other than 1. -/
  | truncateWithoutInterleave
  deriving DecidableEq, Repr

/-- Bits 31:24, reserved, zero in every command (R61). -/
def fieldRsv1 (w : Word) : Nat := (w.extractLsb' 24 8).toNat

/-- Bits 23:16, BDEPTH, unsigned, not scaled, not biased (R61, R65). -/
def fieldBdepth (w : Word) : Nat := (w.extractLsb' 16 8).toNat

/-- Bits 15:8, NLSB, unsigned, not scaled, not biased (R61, R64). -/
def fieldNlsb (w : Word) : Nat := (w.extractLsb' 8 8).toNat

/-- Bits 7:5, reserved, zero in every command (R61). -/
def fieldRsv0 (w : Word) : Nat := (w.extractLsb' 5 3).toNat

/-- Bit 4, T, the truncate flag (R61, R63). -/
def fieldT (w : Word) : Bool := w.getLsbD 4

/-- Bits 3:0, OP (R61, R62). -/
def fieldOp (w : Word) : Nat := (w.extractLsb' 0 4).toNat

/-- The operation a pair OP, T selects, R62's table row by row; every other pair is reserved (R67). -/
def selectOperation (op : Nat) (t : Bool) (n bd : Nat) : Except Illegal Instr :=
  match op, t with
  | 1, false => .ok (.ilv n bd)
  | 1, true => .ok (.ilvt n bd)
  | 2, false => .ok (.dlv n bd)
  | 3, false => .ok (.hide n bd)
  | 4, false => .ok (.rcv n bd)
  | 2, true => .error .truncateWithoutInterleave
  | 3, true => .error .truncateWithoutInterleave
  | 4, true => .error .truncateWithoutInterleave
  | _, _ => .error .reservedOperation

/-- `Decode(w)`, total on all 2^32 words, looking at the word only (R70). -/
def decode (w : Word) : Except Illegal Instr :=
  if fieldRsv1 w ≠ 0 ∨ fieldRsv0 w ≠ 0 then .error .reservedField
  else selectOperation (fieldOp w) (fieldT w) (fieldNlsb w) (fieldBdepth w)

/-- The word of format C with the given fields, the reserved ones zero (R61). -/
def assemble (bd n : Nat) (t : Bool) (op : Nat) : Word :=
  BitVec.ofNat 32 (bd * 2 ^ 16 + n * 2 ^ 8 + t.toNat * 2 ^ 4 + op)

/-- The command word of a well-formed instruction (R62, R71). -/
def encode : Instr → Word
  | .ilv n bd => assemble bd n false 1
  | .ilvt n bd => assemble bd n true 1
  | .dlv n bd => assemble bd n false 2
  | .hide n bd => assemble bd n false 3
  | .rcv n bd => assemble bd n false 4

/-- The word the host port carries for a table word of `nbits` bits: the bits above `nbits` are zero (log entry 2). -/
def tableWord (nbits w : Nat) : Word := BitVec.ofNat 32 (w % 2 ^ nbits)

/-- The instruction the decoder reads from a table word. A command is one 32-bit word (R60, R69), so a value that needs more
than 32 bits is no command (log entry 2). -/
def decodeTableWord (nbits w : Nat) : Option Instr :=
  if w % 2 ^ nbits < 2 ^ 32 then (decode (tableWord nbits w)).toOption else none

end Sys2Proof
end

