-- ==== Sys2Proof/Machine/Bits.lean ====
section
/-! DEFINITION. The pure helper functions of 00_scope.md section 6 (R13 to R18), on natural numbers (R9), byte sequences and
bit sequences (R10). -/

namespace Sys2Proof.Machine

/-- `ceil_div(a, b)` for `b ≥ 1` (R13). -/
def ceilDiv (a b : Nat) : Nat := (a + b - 1) / b

/-- `bit_length(n)`: the number of binary digits, 0 for 0 (R14; 93_implementation_defined.md G1, log entry 12). -/
def bitLength (n : Nat) : Nat := if n = 0 then 0 else Nat.log2 n + 1

/-- `le_bytes(v, w)`: byte `k` is `(v div 2^(8k)) mod 256` (R15). -/
def leBytes (v w : Nat) : List Byte := (List.range w).map fun k => BitVec.ofNat 8 (v / 2 ^ (8 * k))

/-- `le_value(s)`: the little-endian unsigned value, 0 for no bytes (R15). -/
def leValue : List Byte → Nat
  | [] => 0
  | b :: s => b.toNat + 256 * leValue s

/-- The eight bits of a byte, most significant first (R16). -/
def byteBits (b : Byte) : List Bool := (List.range 8).map fun r => b.getLsbD (7 - r)

/-- `bits_of(s)`: each byte most significant bit first, bytes in order (R16). -/
def bitsOf (s : List Byte) : List Bool := s.flatMap byteBits

/-- Bit `j` of a bit sequence extended with zero bits past its end (R18). -/
def bitAt (q : List Bool) (j : Nat) : Bool := q.getD j false

/-- The number a bit sequence spells, its first bit the most significant (R18). -/
def msbValue (q : List Bool) : Nat := q.foldl (fun v b => 2 * v + b.toNat) 0

/-- `chunk(q, n, i)`: the `n`-bit number at bits `i × n` to `i × n + n - 1`, first bit most significant (R18). -/
def chunk (q : List Bool) (n i : Nat) : Nat := msbValue ((List.range n).map fun k => bitAt q (i * n + k))

/-- `pack_bits(q)`: byte `k` has bit `7 - r` equal to `q[8k + r]`, zero past the end (R17). -/
def packBits (q : List Bool) : List Byte :=
  (List.range (ceilDiv q.length 8)).map fun k => BitVec.ofNat 8 (chunk q 8 k)

end Sys2Proof.Machine
end

