-- ==== Sys2Proof/Config.lean ====
section
/-! DEFINITION. What one BPC instance fixes and the spec leaves open: the two parameters of R6 and R7, and the free
contents of the buffers after a reset (R31). The opaque constants have no body, so a claim holds for every value of them. -/

namespace Sys2Proof

/-- The unconstrained number behind BUF_SIZE (93_implementation_defined.md U9; DESIGN CHOICE, log entry 4, safe). -/
opaque Config.bufSizeSeed : Nat

/-- BUF_SIZE, the size in bytes of each buffer: any number from 256 to 2^28 (R6). -/
def Config.bufSize : Nat := max 256 (min Config.bufSizeSeed (2 ^ 28))

/-- The unconstrained set behind SUPPORTED_DEPTHS (93_implementation_defined.md U8; DESIGN CHOICE, log entry 5, safe). -/
opaque Config.depthSeed : Nat → Bool

/-- SUPPORTED_DEPTHS as a membership test: any set that contains 1, 2, 4 and 8 and lies inside 1 to 255 (R7). -/
def Config.depthSupported (bd : Nat) : Bool :=
  decide (1 ≤ bd) && decide (bd ≤ 255) && (bd == 1 || bd == 2 || bd == 4 || bd == 8 || Config.depthSeed bd)

/-- FREE VALUE: the byte at `offset` of the buffer with select number `select` after the reset numbered `count`, as long as
nothing has written it (R31, 93_implementation_defined.md U7; DESIGN CHOICE, log entry 6). -/
opaque Config.powerUp (count select offset : Nat) : Byte

end Sys2Proof
end

