-- ==== Sys2Proof/Machine/State.lean ====
section
/-! DEFINITION. The state of one BPC instance (R20), the host's transactions and their replies (R42), and the reasons a step
can stop. -/

namespace Sys2Proof.Machine

/-- The three byte buffers (R27, R28). Commands and the host reach them by name; the host port numbers them 1, 2, 3. -/
inductive Space where
  /-- CBUF, select 1: the carrier. -/
  | cbuf
  /-- PBUF, select 2: the payload. -/
  | pbuf
  /-- OBUF, select 3: the result. -/
  | obuf
  deriving DecidableEq, Repr

/-- The outcome of a command, the values of STATUS.CODE (R22, R107). -/
inductive Code where
  /-- The command completed. -/
  | ok
  /-- The payload, with its tag for HIDE, does not fit the carrier (R112). -/
  | capacityExceeded
  /-- RCV: the tag does not fit, or claims more than the carrier holds (R113). -/
  | corruptedCarrier
  /-- BDEPTH is not in SUPPORTED_DEPTHS (R111). -/
  | unsupportedSampleWidth
  /-- A legal command with an operand the block cannot use (R110). -/
  | invalidOperand
  /-- The word is no command (R114). -/
  | illegalCommand
  deriving DecidableEq, Repr

/-- The bytes of one buffer that are listed: pairs of offset and byte. The canonical form is Memory.wf (Machine/Ops.lean). -/
abbrev Memory := List Host.Cell

/-- What the bytes of the buffers that are not listed read as. -/
inductive Background where
  /-- The free contents the buffers have after the reset numbered `count` (R31; DESIGN CHOICE, log entry 6, unsafe only for
  claims that compare two runs). -/
  | powerUp (count : Nat)
  /-- One named byte everywhere: for writing a state down by hand. No reset gives it (DESIGN CHOICE, log entry 7, safe). -/
  | uniform (fill : Byte)
  deriving DecidableEq, Repr

/-- The size of a read transaction (R42, R46). -/
inductive Size where
  /-- 32 bits: the size of every register access. -/
  | word
  /-- 8 bits: the size of every buffer access. -/
  | byte
  /-- Any other size, in bits; it gets ERR. -/
  | other (bits : Nat)
  deriving DecidableEq, Repr

/-- The data of a write transaction, with its size (R42, R46). -/
inductive Datum where
  /-- 32 bits. -/
  | word (v : Word)
  /-- 8 bits. -/
  | byte (b : Byte)
  /-- Any other size, in bits; it gets ERR, so its value is not held. -/
  | other (bits : Nat)
  deriving DecidableEq, Repr

/-- What the host can do to the block: the transactions of R42, in the raw form that R46 needs (any space select, any
offset, any size), and the reset of R125 (log entries 1, 8, 9). -/
inductive Request where
  /-- Read `size` at `offset` of the space with number `select`. -/
  | read (select : Nat) (size : Size) (offset : Nat)
  /-- Write `datum` at `offset` of the space with number `select`. -/
  | write (select : Nat) (datum : Datum) (offset : Nat)
  /-- Reset (R125). -/
  | reset
  deriving DecidableEq, Repr

/-- The port's response to a transaction, with the value a read returns (R42). -/
inductive Reply where
  /-- OK, to a write. -/
  | ok
  /-- OK and 32 bits, to HostRead32. -/
  | word (v : Word)
  /-- OK and 8 bits, to HostRead8. -/
  | byte (b : Byte)
  /-- ERR (R46). -/
  | err
  deriving DecidableEq, Repr

/-- The state: the registers and buffers of R20, and three fields of the model's own (background, requests, reply). -/
structure State where
  /-- SCOUNT, sample_count (R21). -/
  scount : Word
  /-- PLEN, the payload's length in bytes (R21). -/
  plen : Word
  /-- NBITS, num_bits (R21). -/
  nbits : Word
  /-- STATUS: CODE in bits 3:0, bits 31:4 zero (R22). -/
  status : Word
  /-- RLEN, the length of the result in OBUF (R22). -/
  rlen : Word
  /-- TAGW, the tag width (R22). -/
  tagw : Word
  /-- CLAIMED, the claimed length (R22). -/
  claimed : Word
  /-- CBUF's listed bytes (R27). -/
  cbuf : Memory
  /-- PBUF's listed bytes (R27). -/
  pbuf : Memory
  /-- OBUF's listed bytes (R27). -/
  obuf : Memory
  /-- MODEL'S OWN: what the buffers' bytes that are not listed read as (log entries 6, 7). -/
  background : Background
  /-- MODEL'S OWN: what the host has issued and the block has not yet served, oldest first (R51; log entry 1). -/
  requests : List Request
  /-- MODEL'S OWN: the port's response to the latest transaction (R42; log entry 19). -/
  reply : Option Reply
  deriving DecidableEq, Repr

/-- The state right after the first reset: every register 0, the buffers' contents free (R31, R125), nothing issued. -/
def State.reset : State where
  scount := 0#32
  plen := 0#32
  nbits := 0#32
  status := 0#32
  rlen := 0#32
  tagw := 0#32
  claimed := 0#32
  cbuf := []
  pbuf := []
  obuf := []
  background := .powerUp 0
  requests := []
  reply := none

/-- Why the machine stops. -/
inductive Fault where
  /-- Raised by memRead and memWrite (Machine/Ops.lean) when the bytes do not all lie inside the buffer or do not number
  as declared, which R41 leaves without a meaning. Safe; no step from any state raises it (log entry 10). -/
  | transferOutsideBuffer
  deriving DecidableEq, Repr

/-- Why a word has no meaning. -/
inductive Refusal where
  /-- Raised by exec's arm of an instruction that has no meaning yet; every instruction has one, so nothing raises it. Safe. -/
  | notModelled (mnemonic : String)
  deriving DecidableEq, Repr

/-- What a meaning answers. -/
abbrev Answer := Host.Outcome State Fault Refusal

end Sys2Proof.Machine
end

