-- ==== Sys2Proof/Machine/Flags.lean ====
section
/-! DEFINITION. STATUS, the block's only flag register (R25): the numbers of its codes and its fields. -/

namespace Sys2Proof.Machine

/-- The number of each outcome in STATUS.CODE (R22, R107). -/
def Code.number : Code → Nat
  | .ok => 0
  | .capacityExceeded => 1
  | .corruptedCarrier => 2
  | .unsupportedSampleWidth => 3
  | .invalidOperand => 4
  | .illegalCommand => 5

/-- STATUS with a given code: bits 31:4 are zero (R22, R115). -/
def Code.statusWord (c : Code) : Word := BitVec.ofNat 32 c.number

/-- STATUS.CODE, bits 3:0 (R22). -/
def statusCode (w : Word) : Nat := (w.extractLsb' 0 4).toNat

/-- STATUS[31:4], hardwired 0 (R22). -/
def statusReserved (w : Word) : Nat := (w.extractLsb' 4 28).toNat

end Sys2Proof.Machine
end

