-- ==== Sys2Proof/Machine/Ops.lean ====
section
/-! DEFINITION. The shared operations: memory, registers, the buffer primitives of R41, how a command ends well, and how it
aborts (R115). -/

namespace Sys2Proof.Machine

/-! ## Parameters -/

/-- `k ≤ BUF_SIZE`. The first test decides, whatever BUF_SIZE is, the sizes that fit every instance (R6; log entry 17). -/
def fitsBuffer (k : Nat) : Bool := decide (k ≤ 256) || decide (k ≤ Config.bufSize)

/-- `bd ∈ SUPPORTED_DEPTHS` (R7, R65). -/
def depthOk (bd : Nat) : Bool := Config.depthSupported bd

/-! ## One buffer -/

/-- A buffer's select number (R28). -/
def Space.select : Space → Nat
  | .cbuf => 1
  | .pbuf => 2
  | .obuf => 3

/-- What the byte at offset `a` of a buffer reads as while it is not listed (R31; log entries 6, 7). -/
def Background.byte (g : Background) (sp : Space) (a : Nat) : Byte :=
  match g with
  | .powerUp count => Config.powerUp count sp.select a
  | .uniform fill => fill

/-- The background after one more reset: fresh free contents (R125; log entries 6, 8). -/
def Background.afterReset : Background → Background
  | .powerUp count => .powerUp (count + 1)
  | .uniform _ => .powerUp 0

/-- The listed byte at an offset. -/
def Memory.find? : Memory → Nat → Option Byte
  | [], _ => none
  | (a, b) :: m, x => if x = a then some b else Memory.find? m x

/-- The byte at an offset: the listed one, else the background `g`. -/
def Memory.read (g : Nat → Byte) (m : Memory) (a : Nat) : Byte := (Memory.find? m a).getD (g a)

/-- List byte `b` at `a`, keeping the offsets rising. -/
def Memory.insert : Memory → Nat → Byte → Memory
  | [], a, b => [(a, b)]
  | (x, c) :: m, a, b =>
    if a < x then (a, b) :: (x, c) :: m
    else if a = x then (a, b) :: m
    else (x, c) :: Memory.insert m a b

/-- Unlist the byte at `a`. -/
def Memory.erase (m : Memory) (a : Nat) : Memory := m.filter fun c => decide (c.1 ≠ a)

/-- Write one byte. A byte that equals the background is not listed, so that equal contents are equal data. -/
def Memory.write (g : Nat → Byte) (m : Memory) (a : Nat) (b : Byte) : Memory :=
  if b = g a then Memory.erase m a else Memory.insert m a b

/-- Write a byte sequence at `a`, `a + 1`, … -/
def Memory.writeAll (g : Nat → Byte) (m : Memory) (a : Nat) : List Byte → Memory
  | [] => m
  | b :: v => Memory.writeAll g (Memory.write g m a b) (a + 1) v

/-- The listed offsets strictly rise. -/
def Memory.rising : Memory → Bool
  | [] => true
  | [_] => true
  | (x, _) :: (y, c) :: m => decide (x < y) && Memory.rising ((y, c) :: m)

/-- The canonical form of a buffer: offsets strictly rising, all inside the buffer, and no listed byte equal to what its
offset would read as unlisted. -/
def Memory.wf (g : Nat → Byte) (m : Memory) : Bool :=
  Memory.rising m && m.all fun c => fitsBuffer (c.1 + 1) && decide (c.2 ≠ g c.1)

/-! ## The buffers of a state -/

/-- A buffer's listed bytes. -/
def State.mem (s : State) : Space → Memory
  | .cbuf => s.cbuf
  | .pbuf => s.pbuf
  | .obuf => s.obuf

/-- Replace a buffer's listed bytes. -/
def State.setMem (s : State) (sp : Space) (m : Memory) : State :=
  match sp with
  | .cbuf => { s with cbuf := m }
  | .pbuf => { s with pbuf := m }
  | .obuf => { s with obuf := m }

/-- The byte at offset `a` of a buffer: `CBUF[a]`, `PBUF[a]`, `OBUF[a]` of R12. -/
def State.byteAt (s : State) (sp : Space) (a : Nat) : Byte := Memory.read (s.background.byte sp) (s.mem sp) a

/-- The byte sequence `space[a .. a + n)` (R12). -/
def State.bytesAt (s : State) (sp : Space) (a n : Nat) : List Byte := (List.range n).map fun k => s.byteAt sp (a + k)

/-- Set `space[a + k] <- v[k]` for every byte of `v` (R41). -/
def State.putBytes (s : State) (sp : Space) (a : Nat) (v : List Byte) : State :=
  s.setMem sp (Memory.writeAll (s.background.byte sp) (s.mem sp) a v)

/-! ## The registers, one setter each -/

/-- `SCOUNT <- v`. -/
def State.setScount (s : State) (v : Word) : State := { s with scount := v }
/-- `PLEN <- v`. -/
def State.setPlen (s : State) (v : Word) : State := { s with plen := v }
/-- `NBITS <- v`. -/
def State.setNbits (s : State) (v : Word) : State := { s with nbits := v }
/-- `STATUS <- v`. -/
def State.setStatus (s : State) (v : Word) : State := { s with status := v }
/-- `RLEN <- v`. -/
def State.setRlen (s : State) (v : Nat) : State := { s with rlen := BitVec.ofNat 32 v }
/-- `TAGW <- v`. -/
def State.setTagw (s : State) (v : Nat) : State := { s with tagw := BitVec.ofNat 32 v }
/-- `CLAIMED <- v`. -/
def State.setClaimed (s : State) (v : Nat) : State := { s with claimed := BitVec.ofNat 32 v }
/-- The port answers. -/
def State.setReply (s : State) (r : Reply) : State := { s with reply := some r }
/-- What the host has still issued. -/
def State.setRequests (s : State) (q : List Request) : State := { s with requests := q }

/-! ## The primitives of commands -/

/-- `k` on the next state, or the stop. -/
def andThen (o : Answer) (k : State → Answer) : Answer :=
  match o with
  | .next s => k s
  | .fault f => .fault f
  | .refused r => .refused r

/-- `MemRead(space, a, n)`, handed to `k` (R41). Outside `a + n ≤ BUF_SIZE` it has no meaning (log entry 10). -/
def memRead (sp : Space) (a n : Nat) (s : State) (k : List Byte → Answer) : Answer :=
  if fitsBuffer (a + n) then k (s.bytesAt sp a n) else .fault .transferOutsideBuffer

/-- `MemWrite(space, a, n, v)` (R41). Outside `len(v) = n` and `a + n ≤ BUF_SIZE` it has no meaning (log entry 10). -/
def memWrite (sp : Space) (a n : Nat) (v : List Byte) (s : State) : Answer :=
  if v.length = n ∧ fitsBuffer (a + n) = true then .next (s.putBytes sp a v) else .fault .transferOutsideBuffer

/-- `abort(code)`: STATUS <- code and RLEN <- 0, nothing else; register writes made before stay made (R115, R108). Control
goes nowhere and there is nothing to return from (R115, R117). -/
def abort (c : Code) (s : State) : Answer := .next ((s.setStatus c.statusWord).setRlen 0)

/-- How every command body ends well: MemWrite(OBUF, 0, len, r), RLEN <- len, STATUS <- 0 (R76, R77, R86, R98, R101). -/
def deliver (len : Nat) (r : List Byte) (s : State) : Answer :=
  andThen (memWrite .obuf 0 len r s) fun t => .next ((t.setRlen len).setStatus Code.ok.statusWord)

/-- What reset leaves: every register 0, the buffers' contents free (R31, R125). What the host has issued after the reset is
still to be served, and a reset has no response (log entry 8). -/
def afterReset (s : State) : State :=
  { State.reset with background := s.background.afterReset, requests := s.requests }

end Sys2Proof.Machine
end

