-- ==== Sys2Proof/Machine/Operands.lean ====
section
/-! DEFINITION. A command's operands: the operand registers as numbers (R21), the carrier and payload byte sequences (R19,
R27), the capacity and tag width (R93, R95), and the common checks in their order (R109). -/

namespace Sys2Proof.Machine

/-- `S`, the number of samples (R21, R109). -/
def State.sampleCount (s : State) : Nat := s.scount.toNat

/-- `L`, the payload's length in bytes (R21, R109). -/
def State.payloadLength (s : State) : Nat := s.plen.toNat

/-- `nb`, the number of bits to recover (R21, R109). -/
def State.bitCount (s : State) : Nat := s.nbits.toNat

/-- The legal range of `num_lsb`, 1 to 8 for every sample width (R66, R110). -/
def nlsbOk (n : Nat) : Bool := decide (1 ≤ n) && decide (n ≤ 8)

/-- `capacity_bits = sample_count × num_lsb` (R93). -/
def State.capacityBits (s : State) (n : Nat) : Nat := s.sampleCount * n

/-- `tag_width(cap)` in bytes (R95). -/
def tagWidth (cap : Nat) : Nat := ceilDiv (bitLength cap) 8

/-- The byte offset of sample `i`'s low byte, the only addressing form (R56, R40). -/
def sampleOffset (bd i : Nat) : Nat := i * bd

/-- `car = MemRead(CBUF, 0, S × bd)` (R76, R86, R98, R101; log entry 18). -/
def withCarrier (bd : Nat) (s : State) (k : List Byte → Answer) : Answer := memRead .cbuf 0 (s.sampleCount * bd) s k

/-- `pay = MemRead(PBUF, 0, L)` (R76, R98). -/
def withPayload (s : State) (k : List Byte → Answer) : Answer := memRead .pbuf 0 s.payloadLength s k

/-- The common checks 2 to 5 of R109, in that order; the first that fails names the code. `usesPayload` says whether the
command reads PBUF (check 5: ILV, ILVT, HIDE only). -/
def failedCheck (usesPayload : Bool) (n bd : Nat) (s : State) : Option Code :=
  if depthOk bd = false then some .unsupportedSampleWidth
  else if nlsbOk n = false then some .invalidOperand
  else if fitsBuffer (s.sampleCount * bd) = false then some .invalidOperand
  else if usesPayload = true ∧ fitsBuffer s.payloadLength = false then some .invalidOperand
  else none

/-- The body of a command, run once the common checks have passed; otherwise the abort they name (R109). -/
def checked (usesPayload : Bool) (n bd : Nat) (s : State) (body : Answer) : Answer :=
  match failedCheck usesPayload n bd s with
  | some c => abort c s
  | none => body

end Sys2Proof.Machine
end

