-- ==== Sys2Proof/Machine/Deinterleave.lean ====
section
/-! DEFINITION. The bit-plane deinterleaver: the function of R85 and the command DLV (R86). -/

namespace Sys2Proof.Machine

/-- The low `n` bits of a byte, bit `n - 1` first, bit 0 last (R85). -/
def lowBits (n : Nat) (b : Byte) : List Bool := (List.range n).map fun k => b.getLsbD (n - 1 - k)

/-- `Deinterleave(car, nb, n, bd)` (R85). -/
def deinterleave (car : List Byte) (nb n bd : Nat) : List Byte :=
  let need := ceilDiv nb n
  let q := (List.range need).flatMap fun i => lowBits n (car.getD (sampleOffset bd i) 0#8)
  packBits (q.take nb)

/-- `DLV n, bd`: deinterleave NBITS bits (R86). -/
def execDlv (n bd : Nat) (s : State) : Answer :=
  checked false n bd s <|
    if s.bitCount > s.sampleCount * n then abort .invalidOperand s
    else
      withCarrier bd s fun car =>
        deliver (ceilDiv s.bitCount 8) (deinterleave car s.bitCount n bd) s

end Sys2Proof.Machine
end

