-- ==== Sys2Proof/Machine/Interleave.lean ====
section
/-! DEFINITION. The bit-plane interleaver: the function of R75 and the commands ILV (R76) and ILVT (R77). -/

namespace Sys2Proof.Machine

/-- A low byte with its low `n` bits replaced by `v`, its high `8 - n` bits kept: `(b & ~(2^n - 1)) | v` (R75). -/
def mergeLow (n : Nat) (b : Byte) (v : Nat) : Byte := (b &&& ~~~(BitVec.ofNat 8 (2 ^ n - 1))) ||| BitVec.ofNat 8 v

/-- `bit_height`: the number of samples that `len` payload bytes touch (R75). -/
def bitHeight (len n : Nat) : Nat := ceilDiv (8 * len) n

/-- `Interleave(car, pay, n, trunc, bd)` (R75). -/
def interleave (car pay : List Byte) (n : Nat) (trunc : Bool) (bd : Nat) : List Byte :=
  let q := bitsOf pay
  let bh := bitHeight pay.length n
  let out := (List.range bh).foldl
    (fun out i => out.set (sampleOffset bd i) (mergeLow n (car.getD (sampleOffset bd i) 0#8) (chunk q n i))) car
  if trunc then out.take (bh * bd) else out

/-- `ILV n, bd`: interleave, full-length result (R76). -/
def execIlv (n bd : Nat) (s : State) : Answer :=
  checked true n bd s <|
    if 8 * s.payloadLength > s.sampleCount * n then abort .capacityExceeded s
    else
      withCarrier bd s fun car => withPayload s fun pay =>
        deliver (s.sampleCount * bd) (interleave car pay n false bd) s

/-- `ILVT n, bd`: interleave, truncated result (R77). -/
def execIlvt (n bd : Nat) (s : State) : Answer :=
  checked true n bd s <|
    if 8 * s.payloadLength > s.sampleCount * n then abort .capacityExceeded s
    else
      withCarrier bd s fun car => withPayload s fun pay =>
        deliver (bitHeight s.payloadLength n * bd) (interleave car pay n true bd) s

end Sys2Proof.Machine
end

