-- ==== Sys2Proof/Machine/Framing.lean ====
section
/-! DEFINITION. The length framer: the frame (R96), the tag (R99) and the commands HIDE (R98) and RCV (R101). -/

namespace Sys2Proof.Machine

/-- `Frame(pay, tw)`: the size tag, then the payload (R96). -/
def frame (pay : List Byte) (tw : Nat) : List Byte := leBytes pay.length tw ++ pay

/-- The length a carrier's size tag claims (R99). -/
def claimedLength (car : List Byte) (tw n bd : Nat) : Nat := leValue (deinterleave car (8 * tw) n bd)

/-- A frame of `tw + len` bytes fits the capacity: the capacity check (R97) and the corruption check (R100). -/
def frameFits (tw len cap : Nat) : Bool := decide (8 * (tw + len) ≤ cap)

/-- `HIDE n, bd`: frame the payload and interleave it (R98). TAGW is written as soon as it is known. -/
def execHide (n bd : Nat) (s : State) : Answer :=
  checked true n bd s <|
    let cap := s.capacityBits n
    let tw := tagWidth cap
    let s1 := s.setTagw tw
    if frameFits tw s1.payloadLength cap = false then abort .capacityExceeded s1
    else
      withCarrier bd s1 fun car => withPayload s1 fun pay =>
        deliver (s1.sampleCount * bd) (interleave car (frame pay tw) n false bd) s1

/-- `RCV n, bd`: parse the size tag, check it, deinterleave the payload (R101). TAGW and CLAIMED are written as soon as they
are known. -/
def execRcv (n bd : Nat) (s : State) : Answer :=
  checked false n bd s <|
    let cap := s.capacityBits n
    let tw := tagWidth cap
    let s1 := s.setTagw tw
    if frameFits tw 0 cap = false then abort .corruptedCarrier (s1.setClaimed 0)
    else
      withCarrier bd s1 fun car =>
        let claimed := claimedLength car tw n bd
        let s2 := s1.setClaimed claimed
        if frameFits tw claimed cap = false then abort .corruptedCarrier s2
        else
          deliver claimed (((deinterleave car (8 * (tw + claimed)) n bd).drop tw).take claimed) s2

end Sys2Proof.Machine
end

