-- ==== Sys2Proof/Machine/Dispatch.lean ====
section
/-! DEFINITION. One arm for each constructor of Instr: the command bodies `Exec` selects (R109, R62). -/

namespace Sys2Proof.Machine

/-- A legal command runs its meaning, the common checks 2 to 5 included (R109). -/
def exec (i : Instr) (s : State) : Host.Outcome State Fault Refusal :=
  match i with
  | .ilv n bd => Sys2Proof.Machine.execIlv n bd s
  | .ilvt n bd => Sys2Proof.Machine.execIlvt n bd s
  | .dlv n bd => Sys2Proof.Machine.execDlv n bd s
  | .hide n bd => Sys2Proof.Machine.execHide n bd s
  | .rcv n bd => Sys2Proof.Machine.execRcv n bd s

end Sys2Proof.Machine
end

