-- ==== Sys2Proof/Machine/HostPort.lean ====
section
/-! DEFINITION. The host port: the register map (R26), the four transactions (R42 to R46), `Exec` (R109) and reset (R125). -/

namespace Sys2Proof.Machine

/-- The registers of the register space (R26). -/
inductive Reg where
  | cmd | status | scount | plen | nbits | rlen | tagw | claimed
  deriving DecidableEq, Repr

/-- The register at a byte offset of REG; none at an offset that is unmapped or not a multiple of 4 (R26, R46, R47). -/
def regAt (offset : Nat) : Option Reg :=
  match offset with
  | 0x00 => some .cmd
  | 0x04 => some .status
  | 0x08 => some .scount
  | 0x0C => some .plen
  | 0x10 => some .nbits
  | 0x14 => some .rlen
  | 0x18 => some .tagw
  | 0x1C => some .claimed
  | _ => none

/-- What a host read of a register returns: CMD reads as 0, no read has a side effect (R23, R43). -/
def State.regValue (s : State) : Reg → Word
  | .cmd => 0#32
  | .status => s.status
  | .scount => s.scount
  | .plen => s.plen
  | .nbits => s.nbits
  | .rlen => s.rlen
  | .tagw => s.tagw
  | .claimed => s.claimed

/-- `Exec(w)`: decode, abort an illegal word, else run the command (R109). -/
def execWord (w : Word) (s : State) : Answer :=
  match decode w with
  | .ok i => exec i s
  | .error _ => abort .illegalCommand s

/-- `HostRead32(off)` (R43, R46). -/
def hostRead32 (offset : Nat) (s : State) : State :=
  match regAt offset with
  | some r => s.setReply (.word (s.regValue r))
  | none => s.setReply .err

/-- `HostWrite32(off, v)` (R44, R46). A write to CMD answers OK whether the command succeeded or aborted. -/
def hostWrite32 (offset : Nat) (v : Word) (s : State) : Answer :=
  match regAt offset with
  | some .cmd => andThen (execWord v s) fun t => .next (t.setReply .ok)
  | some .scount => .next ((s.setScount v).setReply .ok)
  | some .plen => .next ((s.setPlen v).setReply .ok)
  | some .nbits => .next ((s.setNbits v).setReply .ok)
  | some .status => .next (s.setReply .err)
  | some .rlen => .next (s.setReply .err)
  | some .tagw => .next (s.setReply .err)
  | some .claimed => .next (s.setReply .err)
  | none => .next (s.setReply .err)

/-- `HostRead8(space, a)` (R45, R46). -/
def hostRead8 (sp : Space) (a : Nat) (s : State) : State :=
  if fitsBuffer (a + 1) then s.setReply (.byte (s.byteAt sp a)) else s.setReply .err

/-- `HostWrite8(space, a, b)` (R45, R46). -/
def hostWrite8 (sp : Space) (a : Nat) (b : Byte) (s : State) : State :=
  if fitsBuffer (a + 1) then (s.putBytes sp a [b]).setReply .ok else s.setReply .err

/-- A read transaction, by space select and size (R28, R42, R46). -/
def serveRead (select : Nat) (size : Size) (offset : Nat) (s : State) : State :=
  match select, size with
  | 0, .word => hostRead32 offset s
  | 1, .byte => hostRead8 .cbuf offset s
  | 2, .byte => hostRead8 .pbuf offset s
  | 3, .byte => hostRead8 .obuf offset s
  | _, _ => s.setReply .err

/-- A write transaction, by space select and size (R28, R42, R46). -/
def serveWrite (select : Nat) (datum : Datum) (offset : Nat) (s : State) : Answer :=
  match select, datum with
  | 0, .word v => hostWrite32 offset v s
  | 1, .byte b => .next (hostWrite8 .cbuf offset b s)
  | 2, .byte b => .next (hostWrite8 .pbuf offset b s)
  | 3, .byte b => .next (hostWrite8 .obuf offset b s)
  | _, _ => .next (s.setReply .err)

/-- One transaction, or a reset, to its end (R42, R48, R51, R125). -/
def serve (r : Request) (s : State) : Answer :=
  match r with
  | .read select size offset => .next (serveRead select size offset s)
  | .write select datum offset => serveWrite select datum offset s
  | .reset => .next (afterReset s)

/-- The oldest transaction the host has issued, served; with none the block is quiescent (R51, R136; log entry 3). -/
def serveNext (s : State) : Answer :=
  match s.requests with
  | [] => .next s
  | r :: rest => serve r (s.setRequests rest)

/-- The write of command word `w` to CMD (R44, R72). -/
def cmdWrite (w : Word) : Request := .write 0 (.word w) 0x00

end Sys2Proof.Machine
end

