-- ==== Sys2Proof/Machine/Step.lean ====
section
/-! DEFINITION. One step: the block serves the oldest transaction the host has issued (R51). -/

namespace Sys2Proof.Machine

/-- One step of the block (R48, R51, R136; log entries 1, 3). -/
def step (s : State) : Host.Outcome State Fault Refusal := serveNext s

/-- The state whose very next step executes the command word `w`: its write to CMD is the oldest transaction (log entry 2). -/
def State.withFetchWord (s : State) (nbits w : Nat) : State :=
  s.setRequests (cmdWrite (tableWord nbits w) :: s.requests)

end Sys2Proof.Machine
end

