-- ==== Sys2Proof/Safety.lean ====
section
/-! DEFINITION. The terms claims are written in: when a command executes normally, what a command keeps,
the invariant of R32, and the bit streams. -/

namespace Sys2Proof.Machine

/-- The common checks 2 to 5 of R109 pass: the sample width is supported, `1 ≤ n ≤ 8`, the carrier fits CBUF, and, for a
command that reads the payload, the payload fits PBUF. -/
structure ChecksPass (usesPayload : Bool) (n bd : Nat) (s : State) : Prop where
  width : Config.depthSupported bd = true
  nlsbLow : 1 ≤ n
  nlsbHigh : n ≤ 8
  carrier : s.sampleCount * bd ≤ Config.bufSize
  payload : usesPayload = true → s.payloadLength ≤ Config.bufSize

/-- What no command changes: the operand registers (R21), every byte of CBUF and PBUF (R27), and the model's own fields. -/
structure InputsKept (s t : State) : Prop where
  scount : t.scount = s.scount
  plen : t.plen = s.plen
  nbits : t.nbits = s.nbits
  cbuf : ∀ a, t.byteAt .cbuf a = s.byteAt .cbuf a
  pbuf : ∀ a, t.byteAt .pbuf a = s.byteAt .pbuf a
  background : t.background = s.background
  requests : t.requests = s.requests
  reply : t.reply = s.reply

/-- What a success of `len` result bytes leaves, but for the result's bytes: STATUS = 0, RLEN = len, and OBUF unchanged from
`len` on (R27). TAGW and CLAIMED are stated beside it. -/
structure Succeeded (len : Nat) (s t : State) : Prop where
  status : t.status = 0#32
  rlen : t.rlen.toNat = len
  inputs : InputsKept s t
  obufRest : ∀ a, len ≤ a → t.byteAt .obuf a = s.byteAt .obuf a

/-- Bit `j` of the payload's bit stream, zero past its end: bit `7 - j mod 8` of `PBUF[j div 8]` (R16, R18). -/
def State.payloadBit (s : State) (j : Nat) : Bool :=
  decide (j < 8 * s.payloadLength) && (s.byteAt .pbuf (j / 8)).getLsbD (7 - j % 8)

/-- Bit `j` of the carrier's LSB stream: bit `n - 1 - j mod n` of the low byte of sample `j div n` (R85). -/
def State.carrierBit (s : State) (n bd j : Nat) : Bool := (s.byteAt .cbuf (j / n * bd)).getLsbD (n - 1 - j % n)

/-- Bit `j` of the framed payload: the size tag, `tw` bytes of `L` least significant byte first, then the payload, each byte
most significant bit first (R96, R15, R16). -/
def State.framedBit (s : State) (tw j : Nat) : Bool :=
  if j < 8 * tw then s.payloadLength.testBit (8 * (j / 8) + (7 - j % 8)) else s.payloadBit (j - 8 * tw)

/-- Bit `r` of byte `a` of a carrier whose first `bh` samples have had their low `n` bits replaced by a bit stream, `n` bits a
sample, first bit in bit `n - 1`: every other bit is the carrier's (R75, R79). -/
def State.interleavedBit (s : State) (stream : Nat → Bool) (bh n bd a r : Nat) : Bool :=
  if a % bd = 0 ∧ a / bd < bh ∧ r < n then stream (a / bd * n + (n - 1 - r)) else (s.byteAt .cbuf a).getLsbD r

/-- The number the size tag of a carrier spells: tag byte `k`, least significant first, is bits `8k` to `8k + 7` of the
carrier's LSB stream, most significant first (R99, R15). -/
def State.tagValue (s : State) (n bd : Nat) : Nat → Nat
  | 0 => 0
  | tw + 1 =>
    s.tagValue n bd tw +
      256 ^ tw * ((List.range 8).map fun r => (s.carrierBit n bd (8 * tw + r)).toNat * 2 ^ (7 - r)).sum

/-- The invariant of R32, and the canonical form of the three buffers. -/
structure State.Inv (s : State) : Prop where
  statusReserved : statusReserved s.status = 0
  statusCode : statusCode s.status ≤ 5
  rlen : s.rlen.toNat ≤ Config.bufSize
  tagw : s.tagw.toNat ≤ 4
  abortEmpty : Sys2Proof.Machine.statusCode s.status ≠ 0 → s.rlen = 0#32
  cbuf : s.cbuf.wf (s.background.byte .cbuf) = true
  pbuf : s.pbuf.wf (s.background.byte .pbuf) = true
  obuf : s.obuf.wf (s.background.byte .obuf) = true

/-- A step that does not stop. -/
def Completes (o : Answer) : Prop := ∃ t, o = .next t

end Sys2Proof.Machine
end

