-- ==== Sys2Proof/Certificates/Slice0/Obligations.lean ====
section
/-! DEFINITION. The statements for the provers. The registers are written as numbers (`State.sampleCount` is SCOUNT,
`State.payloadLength` is PLEN, `State.bitCount` is NBITS), the buffers are read byte by byte (`State.byteAt`), and an abort is
written as the exact state it leaves. -/

open Sys2Proof Sys2Proof.Machine

/-! ## The command word -/

/-- Every well-formed command is read back from its word, with both operands at every value their fields admit (R61, R70,
R71). -/
def Obligations.DecodeEncodeRoundTrip : Prop :=
  ∀ i : Instr, i.WellFormed = true → decode (encode i) = .ok i

/-- A word that decodes is the word of the command it decodes to, so no two words are one command and no field is dropped
(R61, R70). -/
def Obligations.DecodedWordIsItsEncoding : Prop :=
  ∀ (w : Word) (i : Instr), decode w = .ok i → i.WellFormed = true ∧ encode i = w

/-- R61: the six fields, each within its width, compose the word, so each is the bits the table of R61 gives it; in a word
that decodes the reserved fields are 0, `T` is 1 only with `OP = 1`, and the command's operands are `NLSB` and `BDEPTH`,
unsigned as they stand, and `T` its truncate. -/
def Obligations.FieldsComposeTheWord : Prop :=
  ∀ w : Word,
    w.toNat = fieldRsv1 w * 2 ^ 24 + fieldBdepth w * 2 ^ 16 + fieldNlsb w * 2 ^ 8 + fieldRsv0 w * 2 ^ 5
      + (fieldT w).toNat * 2 ^ 4 + fieldOp w ∧
    fieldRsv1 w < 2 ^ 8 ∧ fieldBdepth w < 2 ^ 8 ∧ fieldNlsb w < 2 ^ 8 ∧ fieldRsv0 w < 2 ^ 3 ∧ fieldOp w < 2 ^ 4 ∧
    ∀ i, decode w = .ok i →
      fieldRsv1 w = 0 ∧ fieldRsv0 w = 0 ∧ (fieldT w = true → fieldOp w = 1) ∧
      i.nlsb = fieldNlsb w ∧ i.bdepth = fieldBdepth w ∧ (fieldT w = true ↔ i = .ilvt (fieldNlsb w) (fieldBdepth w))

/-- R71: the word each line of assembly stands for, for every operand value 0 to 255. -/
def Obligations.AssemblyWords : Prop :=
  ∀ n bd : Nat, n < 256 → bd < 256 →
    (encode (.ilv n bd)).toNat = bd * 0x10000 + n * 0x100 + 0x01 ∧
    (encode (.ilvt n bd)).toNat = bd * 0x10000 + n * 0x100 + 0x11 ∧
    (encode (.dlv n bd)).toNat = bd * 0x10000 + n * 0x100 + 0x02 ∧
    (encode (.hide n bd)).toNat = bd * 0x10000 + n * 0x100 + 0x03 ∧
    (encode (.rcv n bd)).toNat = bd * 0x10000 + n * 0x100 + 0x04

/-- The spec's sentence "A word w is command X exactly when w & 0xFF0000FF = match(X)" (30_encoding.md, R73, which it marks
as derived), for the five rows, with the operands read from bits 15:8 and 23:16; a word that matches no row is illegal. -/
def Obligations.CommandsMatchUnderTheMask : Prop :=
  ∀ w : Word,
    (decode w = .ok (.ilv (fieldNlsb w) (fieldBdepth w)) ↔ w &&& 0xFF0000FF#32 = 0x00000001#32) ∧
    (decode w = .ok (.ilvt (fieldNlsb w) (fieldBdepth w)) ↔ w &&& 0xFF0000FF#32 = 0x00000011#32) ∧
    (decode w = .ok (.dlv (fieldNlsb w) (fieldBdepth w)) ↔ w &&& 0xFF0000FF#32 = 0x00000002#32) ∧
    (decode w = .ok (.hide (fieldNlsb w) (fieldBdepth w)) ↔ w &&& 0xFF0000FF#32 = 0x00000003#32) ∧
    (decode w = .ok (.rcv (fieldNlsb w) (fieldBdepth w)) ↔ w &&& 0xFF0000FF#32 = 0x00000004#32) ∧
    ((∃ e, decode w = .error e) ↔
      w &&& 0xFF0000FF#32 ∉ [0x00000001#32, 0x00000011#32, 0x00000002#32, 0x00000003#32, 0x00000004#32])

/-- R67, R114: the illegal words are exactly these, and `Exec` of one sets STATUS to 5 and RLEN to 0 and changes nothing
else, whatever the state. -/
def Obligations.IllegalWordsAbort : Prop :=
  ∀ (w : Word) (s : State),
    ((∃ e, decode w = .error e) ↔
      fieldRsv1 w ≠ 0 ∨ fieldRsv0 w ≠ 0 ∨ fieldOp w ∉ [1, 2, 3, 4] ∨ (fieldT w = true ∧ fieldOp w ≠ 1)) ∧
    ((∃ e, decode w = .error e) → execWord w s = .next { s with status := 5#32, rlen := 0#32 })

/-- Sample words of the spec's encoding table and of the test vectors V-E-1 to V-E-13 (95_test_vectors.md), written out bit by
bit, decode to what they stand for. -/
def Obligations.SampleWordsDecode : Prop :=
  decode 0b00000000000000010000001100000001#32 = .ok (.ilv 3 1) ∧
  decode 0b00000000000000100000001100010001#32 = .ok (.ilvt 3 2) ∧
  decode 0b00000000000000010000001100000010#32 = .ok (.dlv 3 1) ∧
  decode 0b00000000000000010000001000000011#32 = .ok (.hide 2 1) ∧
  decode 0b00000000000000010000100000000100#32 = .ok (.rcv 8 1) ∧
  decode 0b00000000000000011111111100000010#32 = .ok (.dlv 255 1) ∧
  decode 0b00000000000000000000000000000000#32 = .error .reservedOperation ∧
  decode 0b00000000000000010000001000010100#32 = .error .truncateWithoutInterleave ∧
  decode 0b00000000000000010000001000100011#32 = .error .reservedField

/-! ## The helper functions -/

/-- R13: `ceil_div(a, b)` is the least `q` with `q × b ≥ a`, equals `(a + b - 1) div b`, and is 0 at 0. -/
def Obligations.CeilDivIsLeast : Prop :=
  ∀ a b : Nat, 1 ≤ b →
    a ≤ ceilDiv a b * b ∧ (∀ q, a ≤ q * b → ceilDiv a b ≤ q) ∧ ceilDiv a b = (a + b - 1) / b ∧ ceilDiv 0 b = 0

/-- `bit_length(n)` is the least `k` with `n < 2^k`; 0 at 0, 6 at 48. The definition is the spec's from general knowledge
(R14, 93_implementation_defined.md G1; log entry 12). -/
def Obligations.BitLengthIsLeast : Prop :=
  (∀ n : Nat, n < 2 ^ bitLength n ∧ ∀ k, n < 2 ^ k → bitLength n ≤ k) ∧ bitLength 0 = 0 ∧ bitLength 48 = 6

/-- R15: `le_bytes(v, w)` byte by byte, `le_value` as a sum, their empty cases, and that the second undoes the first. -/
def Obligations.LittleEndianBytes : Prop :=
  (∀ v w : Nat, v < 2 ^ (8 * w) →
    (leBytes v w).length = w ∧ (∀ k, k < w → ((leBytes v w).getD k 0#8).toNat = v / 2 ^ (8 * k) % 256) ∧
    leValue (leBytes v w) = v) ∧
  (∀ s : List Byte, leValue s = ((List.range s.length).map fun k => (s.getD k 0#8).toNat * 2 ^ (8 * k)).sum) ∧
  leBytes 0 0 = [] ∧ leValue [] = 0

/-- R16 and R17: `bits_of` most significant bit first; `pack_bits` the same way back, its unused low bits 0; on whole bytes the
second undoes the first. -/
def Obligations.BitsAndPacking : Prop :=
  (∀ s : List Byte, (bitsOf s).length = 8 * s.length ∧
    ∀ j, j < 8 * s.length → (bitsOf s)[j]? = some ((s.getD (j / 8) 0#8).getLsbD (7 - j % 8))) ∧
  (∀ q : List Bool, (packBits q).length = ceilDiv q.length 8 ∧
    ∀ k r, k < ceilDiv q.length 8 → r < 8 →
      ((packBits q).getD k 0#8).getLsbD (7 - r) = if 8 * k + r < q.length then q.getD (8 * k + r) false else false) ∧
  ∀ s : List Byte, packBits (bitsOf s) = s

/-- R18: `chunk(q, n, i)` as the sum that defines it, with zero bits past the end of `q`, and its range. -/
def Obligations.ChunkIsMostSignificantFirst : Prop :=
  ∀ (q : List Bool) (n i : Nat), 1 ≤ n → n ≤ 8 →
    chunk q n i = ((List.range n).map fun k => (q.getD (i * n + k) false).toNat * 2 ^ (n - 1 - k)).sum ∧
    chunk q n i < 2 ^ n

/-! ## The codec and the frame as functions -/

/-- R75: `Interleave`, byte by byte. The low byte of each of the first `bh` samples has its low `n` bits replaced by its chunk
of the payload's bits (zero past their end) and keeps its high bits; every other byte is the carrier's; the truncated result is
the first `bh` samples. -/
def Obligations.InterleaveReplacesLowBits : Prop :=
  ∀ (car pay : List Byte) (n bd S : Nat), 1 ≤ n → n ≤ 8 → 1 ≤ bd → car.length = S * bd → 8 * pay.length ≤ S * n →
    (interleave car pay n false bd).length = S * bd ∧
    (∀ a, a < S * bd →
      (interleave car pay n false bd).getD a 0#8 =
        if a % bd = 0 ∧ a / bd < ceilDiv (8 * pay.length) n then
          (car.getD a 0#8 &&& ~~~(BitVec.ofNat 8 (2 ^ n - 1))) ||| BitVec.ofNat 8 (chunk (bitsOf pay) n (a / bd))
        else car.getD a 0#8) ∧
    interleave car pay n true bd = (interleave car pay n false bd).take (ceilDiv (8 * pay.length) n * bd)

/-- R79's facts, which the spec derives from R75: in a touched sample the bits from `n` up and the bytes after the low one keep
the carrier's values, every later sample is the carrier's, and the pad bits of the last touched sample are 0. -/
def Obligations.InterleaveLeavesTheRestAlone : Prop :=
  ∀ (car pay : List Byte) (n bd S : Nat), 1 ≤ n → n ≤ 8 → 1 ≤ bd → car.length = S * bd → 8 * pay.length ≤ S * n →
    (∀ i r, i < S → n ≤ r →
      ((interleave car pay n false bd).getD (i * bd) 0#8).getLsbD r = (car.getD (i * bd) 0#8).getLsbD r) ∧
    (∀ i j, i < S → 1 ≤ j → j < bd →
      (interleave car pay n false bd).getD (i * bd + j) 0#8 = car.getD (i * bd + j) 0#8) ∧
    (∀ i, ceilDiv (8 * pay.length) n ≤ i → i < S →
      (interleave car pay n false bd).getD (i * bd) 0#8 = car.getD (i * bd) 0#8) ∧
    (∀ r, 1 ≤ pay.length → r < n * ceilDiv (8 * pay.length) n - 8 * pay.length →
      ((interleave car pay n false bd).getD ((ceilDiv (8 * pay.length) n - 1) * bd) 0#8).getLsbD r = false)

/-- R78 (a) and (b): length invariance, and the truncated result is the first `bh × bd` bytes of the other. -/
def Obligations.InterleaveLengthAndPrefix : Prop :=
  ∀ (car pay : List Byte) (n bd S : Nat), 1 ≤ n → n ≤ 8 → 1 ≤ bd → car.length = S * bd → 8 * pay.length ≤ S * n →
    (interleave car pay n false bd).length = car.length ∧
    (interleave car pay n true bd).length = ceilDiv (8 * pay.length) n * bd ∧
    ∀ k, k < ceilDiv (8 * pay.length) n * bd →
      (interleave car pay n true bd).getD k 0#8 = (interleave car pay n false bd).getD k 0#8

/-- R78 (c) and (d), which the spec derives: the overwritten bits of the carrier do not matter, and interleaving the same
payload twice is interleaving it once. -/
def Obligations.InterleaveForgetsAndRepeats : Prop :=
  ∀ (car car' pay : List Byte) (n bd S : Nat), 1 ≤ n → n ≤ 8 → 1 ≤ bd → car.length = S * bd → car'.length = S * bd →
    8 * pay.length ≤ S * n →
    ((∀ a, a < S * bd → ¬(a % bd = 0 ∧ a / bd < ceilDiv (8 * pay.length) n) → car.getD a 0#8 = car'.getD a 0#8) →
      (∀ i r, i < ceilDiv (8 * pay.length) n → n ≤ r →
        (car.getD (i * bd) 0#8).getLsbD r = (car'.getD (i * bd) 0#8).getLsbD r) →
      interleave car pay n false bd = interleave car' pay n false bd) ∧
    interleave (interleave car pay n false bd) pay n false bd = interleave car pay n false bd

/-- R85: `Deinterleave`, bit by bit. Bit `j` of the recovered stream is bit `n - 1 - j mod n` of the low byte of sample
`j div n` and lands in bit `7 - j mod 8` of byte `j div 8`; the unused low bits of the last byte are 0. -/
def Obligations.DeinterleaveReadsTheStream : Prop :=
  ∀ (car : List Byte) (nb n bd : Nat), 1 ≤ n → n ≤ 8 → 1 ≤ bd → ceilDiv nb n * bd ≤ car.length →
    (deinterleave car nb n bd).length = ceilDiv nb 8 ∧
    (∀ j, j < nb → ((deinterleave car nb n bd).getD (j / 8) 0#8).getLsbD (7 - j % 8) =
      (car.getD (j / n * bd) 0#8).getLsbD (n - 1 - j % n)) ∧
    ∀ j, nb ≤ j → j < 8 * ceilDiv nb 8 → ((deinterleave car nb n bd).getD (j / 8) 0#8).getLsbD (7 - j % 8) = false

/-- R87: deinterleaving an interleaved carrier, truncated or not, gives the payload back. -/
def Obligations.DeinterleaveInvertsInterleave : Prop :=
  ∀ (car pay : List Byte) (n bd S : Nat) (trunc : Bool), 1 ≤ n → n ≤ 8 → 1 ≤ bd → car.length = S * bd →
    8 * pay.length ≤ S * n → deinterleave (interleave car pay n trunc bd) (8 * pay.length) n bd = pay

/-- The generalisation of R87 that the spec derives: the first `nb` bits come back, packed. -/
def Obligations.DeinterleaveOfAPrefix : Prop :=
  ∀ (car pay : List Byte) (n bd S nb : Nat) (trunc : Bool), 1 ≤ n → n ≤ 8 → 1 ≤ bd → car.length = S * bd →
    8 * pay.length ≤ S * n → nb ≤ 8 * pay.length →
    deinterleave (interleave car pay n trunc bd) nb n bd = packBits ((bitsOf pay).take nb)

/-- R95: the tag width is `ceil_div(bit_length(cap), 8)`, with the values R95 lists. -/
def Obligations.TagWidthValues : Prop :=
  ∀ cap : Nat,
    tagWidth cap = ceilDiv (bitLength cap) 8 ∧ (cap = 0 → tagWidth cap = 0) ∧ (1 ≤ cap → cap ≤ 255 → tagWidth cap = 1) ∧
    (256 ≤ cap → cap ≤ 65535 → tagWidth cap = 2) ∧ (65536 ≤ cap → cap < 2 ^ 24 → tagWidth cap = 3) ∧
    (2 ^ 24 ≤ cap → cap < 2 ^ 32 → tagWidth cap = 4)

/-- The last sentence of R95 and the last of R96, which the spec derives: the tag fits the carrier exactly when the capacity is
0 or at least 8, and a length that passed the capacity check fits the tag. -/
def Obligations.TagFitsAndHoldsTheLength : Prop :=
  ∀ cap : Nat, cap ≤ 2 ^ 31 →
    (8 * tagWidth cap ≤ cap ↔ cap = 0 ∨ 8 ≤ cap) ∧
    ∀ len, 8 * (tagWidth cap + len) ≤ cap → len < 2 ^ (8 * tagWidth cap)

/-! ## The five commands -/

/-- R76, whole: the word of ILV decodes to it; when the common checks pass and the payload fits, it completes with STATUS 0,
RLEN = S × bd and the interleaved carrier in OBUF, and leaves everything else; a payload that does not fit aborts with code 1;
a failed common check aborts with code 3 or 4. -/
def Obligations.IlvInterleaves : Prop :=
  ∀ (n bd : Nat) (s : State),
    (n < 256 → bd < 256 → decode (BitVec.ofNat 32 (bd * 0x10000 + n * 0x100 + 0x01)) = .ok (.ilv n bd)) ∧
    (ChecksPass true n bd s → 8 * s.payloadLength ≤ s.sampleCount * n →
      ∃ t, exec (.ilv n bd) s = .next t ∧ Succeeded (s.sampleCount * bd) s t ∧ t.tagw = s.tagw ∧ t.claimed = s.claimed ∧
        ∀ a r, a < s.sampleCount * bd → r < 8 →
          (t.byteAt .obuf a).getLsbD r =
            s.interleavedBit s.payloadBit (ceilDiv (8 * s.payloadLength) n) n bd a r) ∧
    (ChecksPass true n bd s → s.sampleCount * n < 8 * s.payloadLength →
      exec (.ilv n bd) s = .next { s with status := 1#32, rlen := 0#32 }) ∧
    (¬ChecksPass true n bd s →
      exec (.ilv n bd) s = .next { s with status := 3#32, rlen := 0#32 } ∨
      exec (.ilv n bd) s = .next { s with status := 4#32, rlen := 0#32 })

/-- R77, whole: as ILV, but the result is the first `bh` samples only, `bh = ceil_div(8 × PLEN, n)`. -/
def Obligations.IlvtInterleavesAPrefix : Prop :=
  ∀ (n bd : Nat) (s : State),
    (n < 256 → bd < 256 → decode (BitVec.ofNat 32 (bd * 0x10000 + n * 0x100 + 0x11)) = .ok (.ilvt n bd)) ∧
    (ChecksPass true n bd s → 8 * s.payloadLength ≤ s.sampleCount * n →
      ∃ t, exec (.ilvt n bd) s = .next t ∧ Succeeded (ceilDiv (8 * s.payloadLength) n * bd) s t ∧ t.tagw = s.tagw ∧
        t.claimed = s.claimed ∧
        ∀ a r, a < ceilDiv (8 * s.payloadLength) n * bd → r < 8 →
          (t.byteAt .obuf a).getLsbD r =
            s.interleavedBit s.payloadBit (ceilDiv (8 * s.payloadLength) n) n bd a r) ∧
    (ChecksPass true n bd s → s.sampleCount * n < 8 * s.payloadLength →
      exec (.ilvt n bd) s = .next { s with status := 1#32, rlen := 0#32 }) ∧
    (¬ChecksPass true n bd s →
      exec (.ilvt n bd) s = .next { s with status := 3#32, rlen := 0#32 } ∨
      exec (.ilvt n bd) s = .next { s with status := 4#32, rlen := 0#32 })

/-- R86, whole: DLV repacks the first NBITS bits of the carrier's LSB stream, zero fills the last byte, and leaves everything
else; NBITS above the capacity aborts with code 4. -/
def Obligations.DlvDeinterleaves : Prop :=
  ∀ (n bd : Nat) (s : State),
    (n < 256 → bd < 256 → decode (BitVec.ofNat 32 (bd * 0x10000 + n * 0x100 + 0x02)) = .ok (.dlv n bd)) ∧
    (ChecksPass false n bd s → s.bitCount ≤ s.sampleCount * n →
      ∃ t, exec (.dlv n bd) s = .next t ∧ Succeeded (ceilDiv s.bitCount 8) s t ∧ t.tagw = s.tagw ∧ t.claimed = s.claimed ∧
        ∀ k r, k < ceilDiv s.bitCount 8 → r < 8 →
          (t.byteAt .obuf k).getLsbD (7 - r) =
            if 8 * k + r < s.bitCount then s.carrierBit n bd (8 * k + r) else false) ∧
    (ChecksPass false n bd s → s.sampleCount * n < s.bitCount →
      exec (.dlv n bd) s = .next { s with status := 4#32, rlen := 0#32 }) ∧
    (¬ChecksPass false n bd s →
      exec (.dlv n bd) s = .next { s with status := 3#32, rlen := 0#32 } ∨
      exec (.dlv n bd) s = .next { s with status := 4#32, rlen := 0#32 })

/-- R98, whole: HIDE frames the payload with a size tag of `tw` bytes and interleaves the frame; TAGW holds `tw` also when the
frame does not fit and the command aborts with code 1, but not when a common check fails. -/
def Obligations.HideFramesAndInterleaves : Prop :=
  ∀ (n bd : Nat) (s : State),
    (n < 256 → bd < 256 → decode (BitVec.ofNat 32 (bd * 0x10000 + n * 0x100 + 0x03)) = .ok (.hide n bd)) ∧
    (ChecksPass true n bd s →
      8 * (tagWidth (s.sampleCount * n) + s.payloadLength) ≤ s.sampleCount * n →
      ∃ t, exec (.hide n bd) s = .next t ∧ Succeeded (s.sampleCount * bd) s t ∧
        t.tagw.toNat = tagWidth (s.sampleCount * n) ∧ t.claimed = s.claimed ∧
        ∀ a r, a < s.sampleCount * bd → r < 8 →
          (t.byteAt .obuf a).getLsbD r =
            s.interleavedBit (s.framedBit (tagWidth (s.sampleCount * n)))
              (ceilDiv (8 * (tagWidth (s.sampleCount * n) + s.payloadLength)) n) n bd a r) ∧
    (ChecksPass true n bd s →
      s.sampleCount * n < 8 * (tagWidth (s.sampleCount * n) + s.payloadLength) →
      exec (.hide n bd) s =
        .next { s with status := 1#32, rlen := 0#32, tagw := BitVec.ofNat 32 (tagWidth (s.sampleCount * n)) }) ∧
    (¬ChecksPass true n bd s →
      exec (.hide n bd) s = .next { s with status := 3#32, rlen := 0#32 } ∨
      exec (.hide n bd) s = .next { s with status := 4#32, rlen := 0#32 })

/-- R101, whole: RCV reads the size tag, checks it, and recovers the bytes it claims; TAGW and CLAIMED are written whenever the
common checks pass; a tag that does not fit or claims too much aborts with code 2. -/
def Obligations.RcvRecovers : Prop :=
  ∀ (n bd : Nat) (s : State),
    (n < 256 → bd < 256 → decode (BitVec.ofNat 32 (bd * 0x10000 + n * 0x100 + 0x04)) = .ok (.rcv n bd)) ∧
    (ChecksPass false n bd s →
      8 * (tagWidth (s.sampleCount * n) + s.tagValue n bd (tagWidth (s.sampleCount * n))) ≤ s.sampleCount * n →
      ∃ t, exec (.rcv n bd) s = .next t ∧ Succeeded (s.tagValue n bd (tagWidth (s.sampleCount * n))) s t ∧
        t.tagw.toNat = tagWidth (s.sampleCount * n) ∧
        t.claimed.toNat = s.tagValue n bd (tagWidth (s.sampleCount * n)) ∧
        ∀ k r, k < s.tagValue n bd (tagWidth (s.sampleCount * n)) → r < 8 →
          (t.byteAt .obuf k).getLsbD (7 - r) = s.carrierBit n bd (8 * (tagWidth (s.sampleCount * n) + k) + r)) ∧
    (ChecksPass false n bd s → s.sampleCount * n < 8 * tagWidth (s.sampleCount * n) →
      exec (.rcv n bd) s =
        .next { s with
          status := 2#32, rlen := 0#32, tagw := BitVec.ofNat 32 (tagWidth (s.sampleCount * n)), claimed := 0#32 }) ∧
    (ChecksPass false n bd s → 8 * tagWidth (s.sampleCount * n) ≤ s.sampleCount * n →
      s.sampleCount * n < 8 * (tagWidth (s.sampleCount * n) + s.tagValue n bd (tagWidth (s.sampleCount * n))) →
      exec (.rcv n bd) s =
        .next { s with
          status := 2#32, rlen := 0#32, tagw := BitVec.ofNat 32 (tagWidth (s.sampleCount * n)),
          claimed := BitVec.ofNat 32 (s.tagValue n bd (tagWidth (s.sampleCount * n))) }) ∧
    (¬ChecksPass false n bd s →
      exec (.rcv n bd) s = .next { s with status := 3#32, rlen := 0#32 } ∨
      exec (.rcv n bd) s = .next { s with status := 4#32, rlen := 0#32 })

/-! ## Errors -/

/-- R109, R110, R111: the checks of `Exec` in their order, each with the exact state its abort leaves, and the command that
`OP` and `T` select, run when the word decodes. `DLV` is the command of R110 (d); `ILV`, `ILVT`, `HIDE` those of R110 (c). -/
def Obligations.ChecksDecideInOrder : Prop :=
  ∀ (w : Word) (s : State) (i : Instr),
    ((∃ e, decode w = .error e) → execWord w s = .next { s with status := 5#32, rlen := 0#32 }) ∧
    (decode w = .ok i → execWord w s = exec i s ∧
      (fieldOp w, fieldT w, i) ∈
        [(1, false, .ilv (fieldNlsb w) (fieldBdepth w)), (1, true, .ilvt (fieldNlsb w) (fieldBdepth w)),
          (2, false, .dlv (fieldNlsb w) (fieldBdepth w)), (3, false, .hide (fieldNlsb w) (fieldBdepth w)),
          (4, false, Instr.rcv (fieldNlsb w) (fieldBdepth w))]) ∧
    (Config.depthSupported i.bdepth = false ∨ i.bdepth = 0 →
      exec i s = .next { s with status := 3#32, rlen := 0#32 }) ∧
    (Config.depthSupported i.bdepth = true → i.nlsb < 1 ∨ 8 < i.nlsb →
      exec i s = .next { s with status := 4#32, rlen := 0#32 }) ∧
    (Config.depthSupported i.bdepth = true → 1 ≤ i.nlsb → i.nlsb ≤ 8 →
      Config.bufSize < s.sampleCount * i.bdepth →
      exec i s = .next { s with status := 4#32, rlen := 0#32 }) ∧
    (Config.depthSupported i.bdepth = true → 1 ≤ i.nlsb → i.nlsb ≤ 8 →
      s.sampleCount * i.bdepth ≤ Config.bufSize → Config.bufSize < s.payloadLength →
      i ∈ [Instr.ilv i.nlsb i.bdepth, .ilvt i.nlsb i.bdepth, .hide i.nlsb i.bdepth] →
      exec i s = .next { s with status := 4#32, rlen := 0#32 }) ∧
    (Config.depthSupported i.bdepth = true → 1 ≤ i.nlsb → i.nlsb ≤ 8 →
      s.sampleCount * i.bdepth ≤ Config.bufSize → s.sampleCount * i.nlsb < s.bitCount →
      i = .dlv i.nlsb i.bdepth → exec i s = .next { s with status := 4#32, rlen := 0#32 })

/-- R7, R111: 1, 2, 4 and 8 are supported, 0 and anything above 255 is not, whatever set the instance has. -/
def Obligations.SupportedDepths : Prop :=
  Config.depthSupported 1 = true ∧ Config.depthSupported 2 = true ∧ Config.depthSupported 4 = true ∧
  Config.depthSupported 8 = true ∧ Config.depthSupported 0 = false ∧
  (∀ bd, 255 < bd → Config.depthSupported bd = false) ∧
  256 ≤ Config.bufSize ∧ Config.bufSize ≤ 2 ^ 28

/-- R112: STATUS ends at 1 exactly for HIDE whose frame does not fit, and for ILV and ILVT whose payload does not. -/
def Obligations.CapacityExceededExactlyWhen : Prop :=
  ∀ (i : Instr) (s : State), ∃ t, exec i s = .next t ∧
    (t.status = 1#32 ↔
      (∃ n bd, i = .hide n bd ∧ ChecksPass true n bd s ∧
        s.sampleCount * n < 8 * (tagWidth (s.sampleCount * n) + s.payloadLength)) ∨
      (∃ n bd, (i = .ilv n bd ∨ i = .ilvt n bd) ∧ ChecksPass true n bd s ∧ s.sampleCount * n < 8 * s.payloadLength))

/-- R113: STATUS ends at 2 exactly for RCV whose tag claims too much or cannot fit, and the tag cannot fit exactly for a
capacity from 1 to 7. -/
def Obligations.CorruptedCarrierExactlyWhen : Prop :=
  ∀ (i : Instr) (s : State), ∃ t, exec i s = .next t ∧
    (t.status = 2#32 ↔
      ∃ n bd, i = .rcv n bd ∧ ChecksPass false n bd s ∧
        (s.sampleCount * n < 8 * tagWidth (s.sampleCount * n) ∨
          s.sampleCount * n < 8 * (tagWidth (s.sampleCount * n) + s.tagValue n bd (tagWidth (s.sampleCount * n))))) ∧
    (∀ n bd, ChecksPass false n bd s →
      (s.sampleCount * n < 8 * tagWidth (s.sampleCount * n) ↔ 1 ≤ s.sampleCount * n ∧ s.sampleCount * n ≤ 7))

/-- R115: `abort(code)` sets STATUS to the code, bits 31:4 zero, and RLEN to 0, and changes nothing else. -/
def Obligations.AbortWritesStatusAndRlen : Prop :=
  ∀ (c : Code) (s : State),
    abort c s = .next { s with status := BitVec.ofNat 32 c.number, rlen := 0#32 } ∧
    statusCode (BitVec.ofNat 32 c.number) = c.number ∧ statusReserved (BitVec.ofNat 32 c.number) = 0

/-- R107, R108: every word ends with one of the six codes; after any but 0, RLEN is 0 and nothing has changed but STATUS, RLEN
and, where the command is HIDE or RCV, TAGW and, for RCV, CLAIMED. -/
def Obligations.EveryCommandEndsWithOneCode : Prop :=
  ∀ (w : Word) (s : State), ∃ t, execWord w s = .next t ∧
    t.status ∈ [0#32, 1#32, 2#32, 3#32, 4#32, 5#32] ∧
    (t.status ≠ 0#32 →
      t = { s with status := t.status, rlen := 0#32, tagw := t.tagw, claimed := t.claimed } ∧
      (t.tagw ≠ s.tagw → (∃ n bd, decode w = .ok (.hide n bd) ∧ t.status = 1#32) ∨
        ∃ n bd, decode w = .ok (.rcv n bd) ∧ t.status = 2#32) ∧
      (t.claimed ≠ s.claimed → ∃ n bd, decode w = .ok (.rcv n bd) ∧ t.status = 2#32))

/-- R116: a command that aborts has written no byte of OBUF, CBUF or PBUF. -/
def Obligations.AbortLeavesEveryBuffer : Prop :=
  ∀ (w : Word) (s : State), ∃ t, execWord w s = .next t ∧
    (t.status ≠ 0#32 → t.rlen = 0#32 ∧ ∀ (sp : Space) (a : Nat), t.byteAt sp a = s.byteAt sp a)

/-- The sentence of 60_exceptions.md section 5 on repetition: repeating an aborted command with the same operands and buffers
aborts again with the same code, and leaves the state the first abort left. -/
def Obligations.RepeatedAbortIsTheSame : Prop :=
  ∀ (w : Word) (s t : State), execWord w s = .next t → t.status ≠ 0#32 → execWord w t = .next t

/-! ## Every command, whole-machine rules -/

/-- Every command, whatever the state and operands, ends in a next state: none stops in a fault or a refusal. The geometry
checks come before every buffer access (20_memory.md section 2). -/
def Obligations.EveryCommandCompletes : Prop := ∀ (i : Instr) (s : State), Completes (exec i s)

/-- Every step, whatever the state and the transaction, ends in a next state (20_memory.md sections 2 and 3). So the model's one
fault, transferOutsideBuffer, is never raised: that a buffer primitive outside its bounds faults is the model's choice (log
entry 10), and this says that no step reaches it. -/
def Obligations.EveryStepCompletes : Prop := ∀ s : State, Completes (step s)

/-- No command changes an operand register, a byte of CBUF or PBUF, or a byte of OBUF at or past the RLEN it leaves (10_state.md
sections 2 and 7). -/
def Obligations.CommandsKeepTheirInputs : Prop :=
  ∀ (w : Word) (s : State), ∃ t, execWord w s = .next t ∧ InputsKept s t ∧
    t.rlen.toNat ≤ Config.bufSize ∧ ∀ a, t.rlen.toNat ≤ a → t.byteAt .obuf a = s.byteAt .obuf a

/-- ILV, ILVT and DLV write neither TAGW nor CLAIMED, and HIDE does not write CLAIMED (10_state.md section 5). -/
def Obligations.TagRegistersAreFramingOnly : Prop :=
  ∀ (n bd : Nat) (s : State),
    (∃ t, exec (.ilv n bd) s = .next t ∧ t.tagw = s.tagw ∧ t.claimed = s.claimed) ∧
    (∃ t, exec (.ilvt n bd) s = .next t ∧ t.tagw = s.tagw ∧ t.claimed = s.claimed) ∧
    (∃ t, exec (.dlv n bd) s = .next t ∧ t.tagw = s.tagw ∧ t.claimed = s.claimed) ∧
    (∃ t, exec (.hide n bd) s = .next t ∧ t.claimed = s.claimed)

/-- R30: the result of a command is a function of the command word, the operand registers, CBUF and PBUF. Two states that agree
on these, whatever their OBUF, result registers and history, end with the same STATUS, RLEN and result bytes; TAGW is written
with the same value in both or in neither, and so is CLAIMED. -/
def Obligations.ResultDependsOnInputsOnly : Prop :=
  ∀ (w : Word) (s1 s2 : State), s1.scount = s2.scount → s1.plen = s2.plen → s1.nbits = s2.nbits →
    (∀ a, a < Config.bufSize → s1.byteAt .cbuf a = s2.byteAt .cbuf a ∧ s1.byteAt .pbuf a = s2.byteAt .pbuf a) →
    ∃ t1 t2, execWord w s1 = .next t1 ∧ execWord w s2 = .next t2 ∧
      t1.status = t2.status ∧ t1.rlen = t2.rlen ∧
      (∀ a, a < t1.rlen.toNat → t1.byteAt .obuf a = t2.byteAt .obuf a) ∧
      (t1.tagw = t2.tagw ∨ (t1.tagw = s1.tagw ∧ t2.tagw = s2.tagw)) ∧
      (t1.claimed = t2.claimed ∨ (t1.claimed = s1.claimed ∧ t2.claimed = s2.claimed))

/-- The footprint of ILVT (20_memory.md section 2): only `PBUF[0 .. PLEN)` and `CBUF[0 .. bh × bd)` matter to its result. -/
def Obligations.IlvtReadsItsPrefixOnly : Prop :=
  ∀ (n bd : Nat) (s1 s2 : State), s1.scount = s2.scount → s1.plen = s2.plen →
    (∀ a, a < s1.payloadLength → s1.byteAt .pbuf a = s2.byteAt .pbuf a) →
    (∀ a, a < ceilDiv (8 * s1.payloadLength) n * bd → s1.byteAt .cbuf a = s2.byteAt .cbuf a) →
    ∃ t1 t2, exec (.ilvt n bd) s1 = .next t1 ∧ exec (.ilvt n bd) s2 = .next t2 ∧
      t1.status = t2.status ∧ t1.rlen = t2.rlen ∧ ∀ a, a < t1.rlen.toNat → t1.byteAt .obuf a = t2.byteAt .obuf a

/-- DLV and truncation (41_deinterleave.md section 3, the command form): DLV gives the same RLEN and result for two states
that agree on NBITS and on the low bytes it reads, whatever their SCOUNT, provided both pass the checks. -/
def Obligations.DlvReadsItsLowBytesOnly : Prop :=
  ∀ (n bd : Nat) (s1 s2 : State), ChecksPass false n bd s1 → ChecksPass false n bd s2 →
    s1.bitCount ≤ s1.sampleCount * n → s2.bitCount ≤ s2.sampleCount * n → s1.nbits = s2.nbits →
    (∀ i, i < ceilDiv s1.bitCount n → s1.byteAt .cbuf (i * bd) = s2.byteAt .cbuf (i * bd)) →
    ∃ t1 t2, exec (.dlv n bd) s1 = .next t1 ∧ exec (.dlv n bd) s2 = .next t2 ∧
      t1.rlen = t2.rlen ∧ ∀ a, a < t1.rlen.toNat → t1.byteAt .obuf a = t2.byteAt .obuf a

/-- After ILV and after ILVT from the same state, `OBUF[0 .. bh × bd)` is the same (40_interleave.md section 3). -/
def Obligations.IlvtIsAPrefixOfIlv : Prop :=
  ∀ (n bd : Nat) (s : State), ChecksPass true n bd s → 8 * s.payloadLength ≤ s.sampleCount * n →
    ∃ t u, exec (.ilv n bd) s = .next t ∧ exec (.ilvt n bd) s = .next u ∧
      ∀ a, a < ceilDiv (8 * s.payloadLength) n * bd → t.byteAt .obuf a = u.byteAt .obuf a

/-! ## Framing laws -/

/-- R102: HIDE, its result placed in CBUF, then RCV with the same operands and SCOUNT recovers the payload. `u` is any state
whose carrier is HIDE's result; nothing else of it matters. -/
def Obligations.HideThenRcvRoundTrip : Prop :=
  ∀ (n bd : Nat) (s : State), ChecksPass true n bd s →
    8 * (tagWidth (s.sampleCount * n) + s.payloadLength) ≤ s.sampleCount * n →
    ∃ t, exec (.hide n bd) s = .next t ∧ t.status = 0#32 ∧
      ∀ u : State, u.scount = s.scount → (∀ a, a < s.sampleCount * bd → u.byteAt .cbuf a = t.byteAt .obuf a) →
        ∃ v, exec (.rcv n bd) u = .next v ∧ v.status = 0#32 ∧ v.rlen.toNat = s.payloadLength ∧
          ∀ k, k < s.payloadLength → v.byteAt .obuf k = s.byteAt .pbuf k

/-- The largest payload HIDE accepts (42_framing.md section 4, derived there from the capacity check): with a capacity of at
least 8, `Lmax` bytes succeed and one more aborts with code 1; with capacity 0, exactly the empty payload succeeds; with 1 to
7, nothing does. -/
def Obligations.CapacityBoundary : Prop :=
  ∀ (n bd : Nat) (s : State), ChecksPass true n bd s → ∃ t, exec (.hide n bd) s = .next t ∧
    (8 ≤ s.sampleCount * n →
      (s.payloadLength ≤ s.sampleCount * n / 8 - tagWidth (s.sampleCount * n) → t.status = 0#32) ∧
      (s.sampleCount * n / 8 - tagWidth (s.sampleCount * n) < s.payloadLength → t.status = 1#32)) ∧
    (s.sampleCount * n = 0 → (s.payloadLength = 0 → t.status = 0#32) ∧ (1 ≤ s.payloadLength → t.status = 1#32)) ∧
    (1 ≤ s.sampleCount * n → s.sampleCount * n ≤ 7 → t.status = 1#32)

/-- R104: HIDE and RCV with the same SCOUNT and NLSB leave the same TAGW, `ceil_div(bit_length(SCOUNT × NLSB), 8)`, whatever
the payload, the carrier bytes or BDEPTH, and whether they succeed or abort after the common checks. -/
def Obligations.TagWidthIsDetermined : Prop :=
  ∀ (n bd bd' : Nat) (s u : State), ChecksPass true n bd s → ChecksPass false n bd' u → s.scount = u.scount →
    ∃ t v, exec (.hide n bd) s = .next t ∧ exec (.rcv n bd') u = .next v ∧ t.tagw = v.tagw ∧
      t.tagw.toNat = ceilDiv (bitLength (s.sampleCount * n)) 8

/-- RCV once the common checks pass ends with code 2, or with code 0 and RLEN = CLAIMED bounded by the capacity, for any
carrier bytes (42_framing.md section 4, derived there). -/
def Obligations.RcvSignalsOrBounds : Prop :=
  ∀ (n bd : Nat) (s : State), ChecksPass false n bd s → ∃ t, exec (.rcv n bd) s = .next t ∧
    (t.status = 2#32 ∨ (t.status = 0#32 ∧ t.rlen = t.claimed ∧
      t.rlen.toNat ≤ s.sampleCount * n / 8 - tagWidth (s.sampleCount * n)))

/-- HIDE equals its parts (42_framing.md section 4, derived there): the same OBUF and RLEN as ILV run on a state whose payload
is the framed one. -/
def Obligations.HideIsIlvOfTheFrame : Prop :=
  ∀ (n bd : Nat) (s u : State), ChecksPass true n bd s →
    8 * (tagWidth (s.sampleCount * n) + s.payloadLength) ≤ s.sampleCount * n →
    u.scount = s.scount → u.payloadLength = tagWidth (s.sampleCount * n) + s.payloadLength →
    (∀ a, a < s.sampleCount * bd → u.byteAt .cbuf a = s.byteAt .cbuf a) →
    u.bytesAt .pbuf 0 u.payloadLength =
      frame (s.bytesAt .pbuf 0 s.payloadLength) (tagWidth (s.sampleCount * n)) →
    ∃ t v, exec (.hide n bd) s = .next t ∧ exec (.ilv n bd) u = .next v ∧ t.rlen = v.rlen ∧
      ∀ a, a < t.rlen.toNat → t.byteAt .obuf a = v.byteAt .obuf a

/-- RCV, when it succeeds, gives the bytes from `tw` on of DLV of the whole frame (42_framing.md section 4, derived there). -/
def Obligations.RcvIsASliceOfDlv : Prop :=
  ∀ (n bd : Nat) (s t u : State), ChecksPass false n bd s → exec (.rcv n bd) s = .next t → t.status = 0#32 →
    u.scount = s.scount → (∀ a, a < s.sampleCount * bd → u.byteAt .cbuf a = s.byteAt .cbuf a) →
    u.bitCount = 8 * (t.tagw.toNat + t.claimed.toNat) →
    ∃ v, exec (.dlv n bd) u = .next v ∧ v.status = 0#32 ∧ v.rlen.toNat = t.tagw.toNat + t.rlen.toNat ∧
      ∀ k, k < t.rlen.toNat → t.byteAt .obuf k = v.byteAt .obuf (t.tagw.toNat + k)

/-! ## The host port and the step -/

/-- R41: MemRead and MemWrite inside their bounds. -/
def Obligations.MemReadAndMemWrite : Prop :=
  ∀ (sp : Space) (a n : Nat) (v : List Byte) (s : State), a + n ≤ Config.bufSize → v.length = n →
    (∀ k : List Byte → Answer, memRead sp a n s k = k (s.bytesAt sp a n)) ∧
    (∀ k, k < n → (s.bytesAt sp a n).getD k 0#8 = s.byteAt sp (a + k)) ∧
    ∃ t, memWrite sp a n v s = .next t ∧ (∀ k, k < n → t.byteAt sp (a + k) = v.getD k 0#8) ∧
      (∀ sp' x, sp' ≠ sp ∨ x < a ∨ a + n ≤ x → t.byteAt sp' x = s.byteAt sp' x) ∧
      t = { s with cbuf := t.cbuf, pbuf := t.pbuf, obuf := t.obuf }

/-- A step runs the decoded command: when the oldest transaction is the write of a command word to CMD, the step is `exec` of
the command it decodes to, with that transaction taken off and the reply OK added; the same for the word that
`withFetchWord` places. -/
def Obligations.StepRunsTheDecodedCommand : Prop :=
  ∀ (s : State) (w : Word) (i : Instr) (rest : List Request), decode w = .ok i →
    (s.requests = cmdWrite w :: rest →
      ∃ t, exec i { s with requests := rest } = .next t ∧ step s = .next { t with reply := some .ok }) ∧
    ∃ t, exec i s = .next t ∧ step (s.withFetchWord 32 w.toNat) = .next { t with reply := some .ok }

/-- R43: HostRead32 at each of the eight offsets answers OK with CMD's 0 or the register's value, and changes no state. -/
def Obligations.HostRead32Answers : Prop :=
  ∀ (s : State) (off : Nat) (rest : List Request), s.requests = .read 0 .word off :: rest →
    ∀ v : Word, (off, v) ∈ [(0x00, 0#32), (0x04, s.status), (0x08, s.scount), (0x0C, s.plen), (0x10, s.nbits),
        (0x14, s.rlen), (0x18, s.tagw), (0x1C, s.claimed)] →
      step s = .next { s with requests := rest, reply := some (.word v) }

/-- R44: HostWrite32 to an operand register sets it, to a read-only register answers ERR, and to CMD runs `Exec` to its end and
answers OK whatever the outcome. -/
def Obligations.HostWrite32Answers : Prop :=
  ∀ (s : State) (off : Nat) (v : Word) (rest : List Request), s.requests = .write 0 (.word v) off :: rest →
    (off = 0x08 → step s = .next { s with requests := rest, scount := v, reply := some .ok }) ∧
    (off = 0x0C → step s = .next { s with requests := rest, plen := v, reply := some .ok }) ∧
    (off = 0x10 → step s = .next { s with requests := rest, nbits := v, reply := some .ok }) ∧
    (off = 0x00 → ∃ t, execWord v { s with requests := rest } = .next t ∧ step s = .next { t with reply := some .ok }) ∧
    (off ∈ [0x04, 0x14, 0x18, 0x1C] → step s = .next { s with requests := rest, reply := some .err })

/-- R45: HostRead8 and HostWrite8 inside a buffer: the byte read is the buffer's, the byte written is the only one that
changes, both answer OK. All three buffers, OBUF included. -/
def Obligations.HostByteAccess : Prop :=
  ∀ (s : State) (sp : Space) (a : Nat) (b : Byte) (rest : List Request), a < Config.bufSize →
    (s.requests = .read sp.select .byte a :: rest →
      step s = .next { s with requests := rest, reply := some (.byte (s.byteAt sp a)) }) ∧
    (s.requests = .write sp.select (.byte b) a :: rest →
      ∃ t, step s = .next t ∧ t.byteAt sp a = b ∧ (∀ sp' x, sp' ≠ sp ∨ x ≠ a → t.byteAt sp' x = s.byteAt sp' x) ∧
        t = { s with requests := rest, reply := some .ok, cbuf := t.cbuf, pbuf := t.pbuf, obuf := t.obuf })

/-- R46: every illegal host access answers ERR and changes no state: an offset of REG that is unmapped or misaligned, a write
to a read-only register, an offset past the buffer, a select above 3, a wrong transfer size. -/
def Obligations.IllegalAccessAnswersErr : Prop :=
  ∀ (s : State) (sel off : Nat) (rest : List Request),
    (∀ size, s.requests = .read sel size off :: rest →
      (sel = 0 ∧ (0x20 ≤ off ∨ off % 4 ≠ 0)) ∨ (sel ∈ [1, 2, 3] ∧ Config.bufSize ≤ off) ∨ 3 < sel ∨
        (sel = 0 ∧ size ≠ .word) ∨ (sel ∈ [1, 2, 3] ∧ size ≠ .byte) →
      step s = .next { s with requests := rest, reply := some .err }) ∧
    (∀ datum, s.requests = .write sel datum off :: rest →
      (sel = 0 ∧ (0x20 ≤ off ∨ off % 4 ≠ 0 ∨ off ∈ [0x04, 0x14, 0x18, 0x1C])) ∨
        (sel ∈ [1, 2, 3] ∧ Config.bufSize ≤ off) ∨ 3 < sel ∨
        (sel = 0 ∧ ∀ v, datum ≠ .word v) ∨ (sel ∈ [1, 2, 3] ∧ ∀ b, datum ≠ .byte b) →
      step s = .next { s with requests := rest, reply := some .err })

/-- Reset as a host event (70_reset_and_hazards.md section 1): every register becomes 0, and the buffers' bytes become fresh
free values: no byte is listed and the background is the next reset's (the model's choice, log entries 6 and 8). -/
def Obligations.ResetEventClearsRegisters : Prop :=
  ∀ (s : State) (rest : List Request), s.requests = .reset :: rest →
    ∃ t, step s = .next t ∧ t.scount = 0#32 ∧ t.plen = 0#32 ∧ t.nbits = 0#32 ∧ t.status = 0#32 ∧ t.rlen = 0#32 ∧
      t.tagw = 0#32 ∧ t.claimed = 0#32 ∧ t.requests = rest ∧
      (∀ k, s.background = .powerUp k → ∀ sp a, t.byteAt sp a = Config.powerUp (k + 1) sp.select a)

/-- The state after reset (10_state.md section 9): the seven registers are 0; each buffer byte is a free value (log entry 6);
nothing is issued (the model's choice, log entry 16), so the block is quiescent. -/
def Obligations.ResetStateRegisters : Prop :=
  State.reset.scount = 0#32 ∧ State.reset.plen = 0#32 ∧ State.reset.nbits = 0#32 ∧ State.reset.status = 0#32 ∧
  State.reset.rlen = 0#32 ∧ State.reset.tagw = 0#32 ∧ State.reset.claimed = 0#32 ∧
  (∀ sp a, State.reset.byteAt sp a = Config.powerUp 0 sp.select a) ∧ step State.reset = .next State.reset

/-- The block serves one transaction a step, oldest first (20_memory.md section 8), and with none issued it is quiescent
(70_reset_and_hazards.md section 3; the step that changes nothing is the model's choice, log entry 3). -/
def Obligations.StepServesTheOldestTransaction : Prop :=
  (∀ (s : State) (r : Request) (rest : List Request), s.requests = r :: rest →
    ∃ t, step s = .next t ∧ t.requests = rest) ∧
  ∀ s : State, s.requests = [] → step s = .next s

/-- Only these events write (10_state.md sections 2, 5 and 7): the result registers change only by a write to CMD or a reset,
the operand registers and the buffers CBUF and PBUF only by a host write other than to CMD or a reset. -/
def Obligations.OnlyTheseEventsWrite : Prop :=
  ∀ (s : State) (r : Request) (rest : List Request), s.requests = r :: rest → r ≠ .reset →
    ∃ t, step s = .next t ∧
      ((∀ w, r ≠ cmdWrite w) → t.status = s.status ∧ t.rlen = s.rlen ∧ t.tagw = s.tagw ∧ t.claimed = s.claimed) ∧
      ((∃ w, r = cmdWrite w) ∨ (∃ sel size off, r = .read sel size off) →
        t.scount = s.scount ∧ t.plen = s.plen ∧ t.nbits = s.nbits ∧
        ∀ a, t.byteAt .cbuf a = s.byteAt .cbuf a ∧ t.byteAt .pbuf a = s.byteAt .pbuf a)

/-! ## The invariant -/

/-- Every step keeps the invariant of R32 and the canonical form of the buffers, from every state that has it. -/
def Obligations.StepKeepsTheInvariant : Prop := ∀ s t : State, s.Inv → step s = .next t → t.Inv

/-- The state after reset has the invariant. -/
def Obligations.ResetHasTheInvariant : Prop := State.reset.Inv
end

