-- ==== Sys2Proof/Laws/Bits.lean ====
section
/-! SUPPORT. One lemma for each helper function of R13 to R18: lengths, and every single bit. -/

namespace Sys2Proof.Machine

/-! ## ceil_div and bit_length -/

theorem ceilDiv_le_iff (a b q : Nat) (hb : 1 ≤ b) : ceilDiv a b ≤ q ↔ a ≤ q * b := by
  unfold ceilDiv
  rw [← Nat.lt_succ_iff, Nat.div_lt_iff_lt_mul (by omega), Nat.succ_mul]
  omega

theorem lt_ceilDiv_iff (a b q : Nat) (hb : 1 ≤ b) : q < ceilDiv a b ↔ q * b < a := by
  have := ceilDiv_le_iff a b q hb
  omega

theorem le_ceilDiv_mul (a b : Nat) (hb : 1 ≤ b) : a ≤ ceilDiv a b * b := (ceilDiv_le_iff a b _ hb).1 le_rfl

theorem ceilDiv_mul_self (a b : Nat) (hb : 1 ≤ b) : ceilDiv (b * a) b = a := by
  unfold ceilDiv
  rw [Nat.add_sub_assoc hb, Nat.mul_add_div (by omega), Nat.div_eq_of_lt (by omega), Nat.add_zero]

theorem bitLength_le_iff (n k : Nat) : bitLength n ≤ k ↔ n < 2 ^ k := by
  unfold bitLength
  split
  · next h => subst h; simp
  · next h => rw [Nat.succ_le_iff, Nat.log2_lt h]

/-! ## Little-endian numbers -/

@[simp] theorem length_leBytes (v w : Nat) : (leBytes v w).length = w := by simp [leBytes]

theorem leBytes_succ (v w : Nat) : leBytes v (w + 1) = BitVec.ofNat 8 v :: leBytes (v / 256) w := by
  simp only [leBytes, List.range_succ_eq_map, List.map_cons, List.map_map]
  rw [Nat.mul_zero, pow_zero, Nat.div_one]
  congr 1
  apply List.map_congr_left
  intro k _
  simp only [Function.comp, Nat.div_div_eq_div_mul]
  congr 2
  rw [show 8 * (k + 1) = 8 + 8 * k by ring, pow_add]
  norm_num

theorem leValue_leBytes_mod (v w : Nat) : leValue (leBytes v w) = v % 2 ^ (8 * w) := by
  induction w generalizing v with
  | zero => simp [leBytes, leValue, Nat.mod_one]
  | succ w ih =>
    rw [leBytes_succ, leValue, ih, show 8 * (w + 1) = 8 + 8 * w by ring, pow_add, Nat.mod_mul]
    simp

theorem leValue_lt (s : List Byte) : leValue s < 2 ^ (8 * s.length) := by
  induction s with
  | nil => simp [leValue]
  | cons b s ih =>
    simp only [leValue, List.length_cons]
    have := b.isLt
    rw [show 8 * (s.length + 1) = 8 + 8 * s.length by ring, pow_add]
    omega

/-- Every byte of a byte sequence weighs 256 times the one before (R15). -/
theorem leValue_eq_sum (s : List Byte) :
    leValue s = ((List.range s.length).map fun k => 256 ^ k * (s.getD k 0#8).toNat).sum := by
  induction s with
  | nil => rfl
  | cons b s ih =>
    rw [leValue, ih, List.length_cons, List.range_succ_eq_map, List.map_cons, List.sum_cons, List.map_map]
    simp only [List.getD_cons_zero, pow_zero, Nat.one_mul]
    rw [← List.sum_map_mul_left]
    congr 2
    apply List.map_congr_left
    intro k _
    simp only [Function.comp, List.getD_cons_succ, Nat.succ_eq_add_one, pow_succ]
    ring

/-! ## Bit sequences -/

theorem length_byteBits (b : Byte) : (byteBits b).length = 8 := by simp [byteBits]

theorem bitAt_eq_false (q : List Bool) (j : Nat) (h : q.length ≤ j) : bitAt q j = false := by
  simp [bitAt, List.getElem?_eq_none h]

theorem bitAt_append (p q : List Bool) (j : Nat) :
    bitAt (p ++ q) j = if j < p.length then bitAt p j else bitAt q (j - p.length) := by
  simp only [bitAt, List.getD_eq_getElem?_getD, List.getElem?_append]
  split <;> rfl

theorem bitAt_take (q : List Bool) (n j : Nat) : bitAt (q.take n) j = (decide (j < n) && bitAt q j) := by
  simp only [bitAt, List.getD_eq_getElem?_getD, List.getElem?_take]
  by_cases h : j < n <;> simp [h]

theorem bitAt_map_range (f : Nat → Bool) (n j : Nat) : bitAt ((List.range n).map f) j = (decide (j < n) && f j) := by
  by_cases h : j < n
  · simp [bitAt, h]
  · rw [bitAt_eq_false _ _ (by simpa using h)]; simp [h]

/-- Blocks of equal length, one after the other: bit `j` is in block `j div n`. -/
theorem bitAt_flatMap_range (f : Nat → List Bool) (n m j : Nat) (hn : 1 ≤ n) (hf : ∀ i, (f i).length = n) :
    bitAt ((List.range m).flatMap f) j = (decide (j < m * n) && bitAt (f (j / n)) (j % n)) := by
  have hlen : ∀ m, ((List.range m).flatMap f).length = m * n := by
    intro m
    simp [List.length_flatMap, hf]
  induction m with
  | zero => simp [bitAt]
  | succ m ih =>
    rw [List.range_succ, List.flatMap_append, bitAt_append, hlen, ih]
    simp only [List.flatMap_cons, List.flatMap_nil, List.append_nil]
    by_cases h1 : j < m * n
    · have : j < (m + 1) * n := by rw [Nat.succ_mul]; omega
      simp [h1, this]
    · rw [if_neg h1]
      by_cases h2 : j < (m + 1) * n
      · have e : j / n = m := by
          rw [Nat.div_eq_iff (by omega)]
          rw [Nat.succ_mul] at h2
          constructor
          · rw [Nat.mul_comm] at *; omega
          · rw [Nat.mul_comm] at *; omega
        have e2 : j - m * n = j % n := by
          have := Nat.div_add_mod j n
          rw [e, Nat.mul_comm] at this
          omega
        simp [h2, e, e2]
      · have : n ≤ j - m * n := by rw [Nat.succ_mul] at h2; omega
        rw [bitAt_eq_false _ _ (by rw [hf]; exact this)]
        simp [h2]

@[simp] theorem length_bitsOf (s : List Byte) : (bitsOf s).length = 8 * s.length := by
  simp [bitsOf, List.length_flatMap, length_byteBits, Nat.mul_comm]

theorem bitsOf_append (s t : List Byte) : bitsOf (s ++ t) = bitsOf s ++ bitsOf t := by simp [bitsOf]

theorem bitAt_byteBits (b : Byte) (r : Nat) : bitAt (byteBits b) r = (decide (r < 8) && b.getLsbD (7 - r)) := by
  rw [byteBits, bitAt_map_range]

/-- Bit `j` of `bits_of(s)`; zero past the end (R16, R18). -/
theorem bitAt_bitsOf (s : List Byte) (j : Nat) : bitAt (bitsOf s) j = (s.getD (j / 8) 0#8).getLsbD (7 - j % 8) := by
  induction s generalizing j with
  | nil => simp [bitsOf, bitAt]
  | cons b s ih =>
    have : bitsOf (b :: s) = byteBits b ++ bitsOf s := by simp [bitsOf]
    rw [this, bitAt_append, length_byteBits]
    by_cases h : j < 8
    · rw [if_pos h, bitAt_byteBits, Nat.div_eq_of_lt h, Nat.mod_eq_of_lt h]
      simp [h]
    · rw [if_neg h, ih]
      have e1 : j / 8 = (j - 8) / 8 + 1 := by omega
      have e2 : (j - 8) % 8 = j % 8 := by omega
      rw [e1, e2]; simp

/-- Bit `j` of the bits of `le_bytes(v, w)` (R15, R16). -/
theorem bitAt_leBytes (v w j : Nat) (h : j < 8 * w) :
    bitAt (bitsOf (leBytes v w)) j = v.testBit (8 * (j / 8) + (7 - j % 8)) := by
  have hk : j / 8 < w := by omega
  have : (leBytes v w).getD (j / 8) 0#8 = BitVec.ofNat 8 (v / 2 ^ (8 * (j / 8))) := by
    simp [leBytes, List.getElem?_range hk]
  have h8 : 7 - j % 8 < 8 := by omega
  rw [bitAt_bitsOf, this, BitVec.getLsbD_ofNat, Nat.testBit_div_two_pow]
  simp [h8, Nat.add_comm]

/-! ## Chunks and packing -/

theorem msbValue_concat (q : List Bool) (b : Bool) : msbValue (q ++ [b]) = 2 * msbValue q + b.toNat := by
  simp [msbValue, List.foldl_append]

theorem msbValue_testBit (q : List Bool) (j : Nat) :
    (msbValue q).testBit j = (decide (j < q.length) && bitAt q (q.length - 1 - j)) := by
  induction q using List.reverseRecOn generalizing j with
  | nil => simp [msbValue]
  | append_singleton q b ih =>
    rw [msbValue_concat]
    cases j with
    | zero =>
      have : (2 * msbValue q + b.toNat) % 2 = b.toNat := by cases b <;> simp
      rw [Nat.testBit_zero, this]
      cases b <;> simp [bitAt]
    | succ j =>
      have : (2 * msbValue q + b.toNat) / 2 = msbValue q := by
        cases b
        · simp
        · simp; omega
      rw [Nat.testBit_succ, this, ih]
      simp only [List.length_append, List.length_cons, List.length_nil, bitAt_append]
      by_cases h : j < q.length
      · have h1 : j + 1 < q.length + 1 := by omega
        have h2 : q.length + 1 - 1 - (j + 1) < q.length := by omega
        have h3 : q.length + 1 - 1 - (j + 1) = q.length - 1 - j := by omega
        simp [h]
        rw [if_pos (by omega)]
        congr 1; omega
      · simp [h]

/-- The number a bit sequence spells, as a sum of powers of two (R18). -/
theorem msbValue_eq_sum (q : List Bool) :
    msbValue q = ((List.range q.length).map fun k => (q.getD k false).toNat * 2 ^ (q.length - 1 - k)).sum := by
  induction q using List.reverseRecOn with
  | nil => rfl
  | append_singleton q b ih =>
    rw [msbValue_concat, ih, List.length_append, List.length_singleton, List.range_succ, List.map_append, List.sum_append]
    congr 1
    · rw [← List.sum_map_mul_left]
      congr 1
      apply List.map_congr_left
      intro k hk
      have hk := List.mem_range.1 hk
      rw [show q.length + 1 - 1 - k = (q.length - 1 - k) + 1 by omega, pow_succ, List.getD_append _ _ _ _ hk]
      ring
    · simp

/-- Bit `j` of a chunk: the chunk's first bit is its most significant (R18). -/
theorem chunk_testBit (q : List Bool) (n i j : Nat) :
    (chunk q n i).testBit j = (decide (j < n) && bitAt q (i * n + (n - 1 - j))) := by
  rw [chunk, msbValue_testBit]
  simp only [List.length_map, List.length_range, bitAt_map_range]
  by_cases h : j < n
  · have : n - 1 - j < n := by omega
    simp [h, this]
  · simp [h]

theorem chunk_lt (q : List Bool) (n i : Nat) : chunk q n i < 2 ^ n := by
  apply Nat.lt_pow_two_of_testBit
  intro j hj
  rw [chunk_testBit]
  simp [Nat.not_lt.2 hj]

@[simp] theorem length_packBits (q : List Bool) : (packBits q).length = ceilDiv q.length 8 := by simp [packBits]

/-- Bit `r` of byte `k` of `pack_bits(q)`; zero past the end (R17). -/
theorem packBits_getLsbD (q : List Bool) (k r : Nat) :
    ((packBits q).getD k 0#8).getLsbD r = (decide (r < 8) && bitAt q (8 * k + (7 - r))) := by
  by_cases hk : k < ceilDiv q.length 8
  · have : (packBits q).getD k 0#8 = BitVec.ofNat 8 (chunk q 8 k) := by
      simp [packBits, List.getElem?_map, List.getElem?_range hk]
    rw [this, BitVec.getLsbD_ofNat, chunk_testBit, Nat.mul_comm k 8]
    by_cases hr : r < 8 <;> simp [hr]
  · have h1 : (packBits q).getD k 0#8 = 0#8 := by
      rw [List.getD_eq_getElem?_getD, List.getElem?_eq_none (by simpa using hk)]; rfl
    have h2 := (ceilDiv_le_iff q.length 8 k (by omega)).1 (by omega)
    rw [h1, bitAt_eq_false _ _ (by omega)]
    simp

/-- Byte `k` of `pack_bits(q)` is the 8-bit number at bits `8k` to `8k + 7` (R17). -/
theorem packBits_toNat (q : List Bool) (k : Nat) (hk : k < ceilDiv q.length 8) :
    ((packBits q).getD k 0#8).toNat = ((List.range 8).map fun r => (bitAt q (8 * k + r)).toNat * 2 ^ (7 - r)).sum := by
  have : (packBits q).getD k 0#8 = BitVec.ofNat 8 (chunk q 8 k) := by simp [packBits, List.getElem?_range hk]
  rw [this, BitVec.toNat_ofNat, Nat.mod_eq_of_lt (chunk_lt q 8 k), chunk, msbValue_eq_sum]
  simp only [List.length_map, List.length_range]
  congr 1
  apply List.map_congr_left
  intro r hr
  simp [List.getElem?_range (List.mem_range.1 hr), Nat.mul_comm k 8]

/-- Two byte sequences of one length with the same bits are equal. -/
theorem bytes_ext {s t : List Byte} (hl : s.length = t.length)
    (h : ∀ k r, k < s.length → r < 8 → (s.getD k 0#8).getLsbD r = (t.getD k 0#8).getLsbD r) : s = t := by
  apply List.ext_getElem hl
  intro k hk hk'
  apply BitVec.eq_of_getLsbD_eq
  intro r hr
  simpa [List.getD_eq_getElem?_getD, List.getElem?_eq_getElem hk, List.getElem?_eq_getElem hk'] using h k r hk hr

end Sys2Proof.Machine
end

