-- ==== Sys2Proof/Laws/Codec.lean ====
section
/-! SUPPORT. The interleaver, the deinterleaver and the frame: lengths, every byte of an interleave, every bit of a
deinterleave. -/

namespace Sys2Proof.Machine

/-! ## The low byte -/

/-- Bit `r` of a merged byte: the chunk's below `n`, the carrier's from `n` on (R75). -/
theorem mergeLow_getLsbD (n : Nat) (b : Byte) (v r : Nat) (hn : n ≤ 8) (hv : v < 2 ^ n) :
    (mergeLow n b v).getLsbD r = if r < n then v.testBit r else b.getLsbD r := by
  have hm : ∀ r, (2 ^ n - 1).testBit r = decide (r < n) := fun r => Nat.testBit_two_pow_sub_one n r
  simp only [mergeLow, BitVec.getLsbD_or, BitVec.getLsbD_and, BitVec.getLsbD_not, BitVec.getLsbD_ofNat, hm]
  by_cases h8 : r < 8
  · by_cases hr : r < n
    · simp [h8, hr]
    · have : v.testBit r = false := Nat.testBit_lt_two_pow (lt_of_lt_of_le hv (Nat.pow_le_pow_right (by omega) (by omega)))
      simp [h8, hr, this]
  · have h1 : b.getLsbD r = false := BitVec.getLsbD_of_ge _ _ (by omega)
    have h2 : ¬ r < n := by omega
    simp [h8, h1, h2]

/-! ## Interleave -/

/-- The low byte that `Interleave` leaves in a touched sample (R75). -/
def touchedByte (car pay : List Byte) (n bd i : Nat) : Byte :=
  mergeLow n (car.getD (i * bd) 0#8) (chunk (bitsOf pay) n i)

theorem foldl_set_length (f : Nat → Byte) (bd m : Nat) (car : List Byte) :
    ((List.range m).foldl (fun out i => out.set (i * bd) (f i)) car).length = car.length := by
  induction m with
  | zero => simp
  | succ m ih => simp [List.range_succ, ih]

theorem foldl_set_getD (f : Nat → Byte) (bd m : Nat) (car : List Byte) (hbd : 1 ≤ bd) (a : Nat) (ha : a < car.length) :
    ((List.range m).foldl (fun out i => out.set (i * bd) (f i)) car).getD a 0#8 =
      if a % bd = 0 ∧ a / bd < m then f (a / bd) else car.getD a 0#8 := by
  induction m with
  | zero => simp
  | succ m ih =>
    rw [List.range_succ, List.foldl_append]
    simp only [List.foldl_cons, List.foldl_nil]
    rw [List.getD_eq_getElem?_getD, List.getElem?_set, foldl_set_length]
    by_cases h : m * bd = a
    · subst h
      have h1 : m * bd / bd = m := Nat.mul_div_cancel m (by omega)
      simp [ha, h1]
    · rw [if_neg h, ← List.getD_eq_getElem?_getD, ih]
      have : (a % bd = 0 ∧ a / bd < m) ↔ (a % bd = 0 ∧ a / bd < m + 1) := by
        constructor
        · exact fun ⟨h1, h2⟩ => ⟨h1, by omega⟩
        · rintro ⟨h1, h2⟩
          refine ⟨h1, ?_⟩
          rcases Nat.lt_succ_iff_lt_or_eq.1 h2 with h3 | h3
          · exact h3
          · exfalso; apply h
            have := Nat.div_add_mod a bd
            rw [h1, h3, Nat.mul_comm] at this
            omega
      simp only [this]

theorem interleave_false_eq (car pay : List Byte) (n bd : Nat) :
    interleave car pay n false bd =
      (List.range (bitHeight pay.length n)).foldl (fun out i => out.set (i * bd) (touchedByte car pay n bd i)) car := rfl

theorem interleave_true_eq (car pay : List Byte) (n bd : Nat) :
    interleave car pay n true bd = (interleave car pay n false bd).take (bitHeight pay.length n * bd) := rfl

@[simp] theorem length_interleave_full (car pay : List Byte) (n bd : Nat) :
    (interleave car pay n false bd).length = car.length := by
  rw [interleave_false_eq, foldl_set_length]

/-- Every byte of the full-length result (R75). -/
theorem interleave_full_getD (car pay : List Byte) (n bd : Nat) (hbd : 1 ≤ bd) (a : Nat) (ha : a < car.length) :
    (interleave car pay n false bd).getD a 0#8 =
      if a % bd = 0 ∧ a / bd < bitHeight pay.length n then touchedByte car pay n bd (a / bd) else car.getD a 0#8 := by
  rw [interleave_false_eq, foldl_set_getD _ _ _ _ hbd _ ha]

/-- The samples touched number at most the samples there are (R75). -/
theorem bitHeight_le (len n S : Nat) (hn : 1 ≤ n) (h : 8 * len ≤ S * n) : bitHeight len n ≤ S :=
  (ceilDiv_le_iff _ _ _ hn).2 h

theorem length_interleave_trunc (car pay : List Byte) (n bd S : Nat) (hn : 1 ≤ n) (hl : car.length = S * bd)
    (h : 8 * pay.length ≤ S * n) : (interleave car pay n true bd).length = bitHeight pay.length n * bd := by
  rw [interleave_true_eq, List.length_take, length_interleave_full, hl]
  exact min_eq_left (Nat.mul_le_mul_right _ (bitHeight_le _ _ _ hn h))

/-- Bit `r` of a touched low byte (R75, R18): the payload's bit in chunk order below `n`, the carrier's from `n` on. -/
theorem touchedByte_getLsbD (car pay : List Byte) (n bd i r : Nat) (hn : n ≤ 8) :
    (touchedByte car pay n bd i).getLsbD r =
      if r < n then bitAt (bitsOf pay) (i * n + (n - 1 - r)) else (car.getD (i * bd) 0#8).getLsbD r := by
  rw [touchedByte, mergeLow_getLsbD _ _ _ _ hn (chunk_lt _ _ _), chunk_testBit]
  by_cases h : r < n <;> simp [h]

/-! ## Deinterleave -/

theorem bitAt_lowBits (n : Nat) (b : Byte) (k : Nat) : bitAt (lowBits n b) k = (decide (k < n) && b.getLsbD (n - 1 - k)) := by
  rw [lowBits, bitAt_map_range]

@[simp] theorem length_lowBits (n : Nat) (b : Byte) : (lowBits n b).length = n := by simp [lowBits]

/-- The bit stream a deinterleave reads, before packing. -/
def lsbStream (car : List Byte) (nb n bd : Nat) : List Bool :=
  ((List.range (ceilDiv nb n)).flatMap fun i => lowBits n (car.getD (i * bd) 0#8)).take nb

theorem deinterleave_eq (car : List Byte) (nb n bd : Nat) : deinterleave car nb n bd = packBits (lsbStream car nb n bd) := rfl

theorem length_lsbStream (car : List Byte) (nb n bd : Nat) (hn : 1 ≤ n) : (lsbStream car nb n bd).length = nb := by
  have := le_ceilDiv_mul nb n hn
  simp [lsbStream, List.length_flatMap, this]

theorem bitAt_lsbStream (car : List Byte) (nb n bd j : Nat) (hn : 1 ≤ n) :
    bitAt (lsbStream car nb n bd) j = (decide (j < nb) && (car.getD (j / n * bd) 0#8).getLsbD (n - 1 - j % n)) := by
  rw [lsbStream, bitAt_take, bitAt_flatMap_range _ n _ _ hn (fun i => length_lowBits n _), bitAt_lowBits]
  have h1 : j % n < n := Nat.mod_lt _ (by omega)
  by_cases h : j < nb
  · have := le_ceilDiv_mul nb n hn
    have h2 : j < ceilDiv nb n * n := by omega
    simp [h, h1, h2]
  · simp [h]

@[simp] theorem length_deinterleave (car : List Byte) (nb n bd : Nat) (hn : 1 ≤ n) :
    (deinterleave car nb n bd).length = ceilDiv nb 8 := by
  rw [deinterleave_eq, length_packBits, length_lsbStream _ _ _ _ hn]

/-- Bit `r` of result byte `k` (R85): stream bit `8k + 7 - r`, zero from bit `nb` on. -/
theorem deinterleave_getLsbD (car : List Byte) (nb n bd k r : Nat) (hn : 1 ≤ n) (hr : r < 8) :
    ((deinterleave car nb n bd).getD k 0#8).getLsbD r =
      (decide (8 * k + (7 - r) < nb) &&
        (car.getD ((8 * k + (7 - r)) / n * bd) 0#8).getLsbD (n - 1 - (8 * k + (7 - r)) % n)) := by
  rw [deinterleave_eq, packBits_getLsbD, bitAt_lsbStream _ _ _ _ _ hn]
  simp [hr]

/-- A deinterleave depends on the low bytes it reads only (R85, R88). -/
theorem deinterleave_congr (car car' : List Byte) (nb n bd : Nat)
    (h : ∀ i, i < ceilDiv nb n → car.getD (i * bd) 0#8 = car'.getD (i * bd) 0#8) :
    deinterleave car nb n bd = deinterleave car' nb n bd := by
  have : lsbStream car nb n bd = lsbStream car' nb n bd := by
    unfold lsbStream
    congr 1
    rw [List.flatMap_eq_foldl, List.flatMap_eq_foldl]
    apply List.foldl_ext
    intro acc i hi
    rw [h i (List.mem_range.1 hi)]
  rw [deinterleave_eq, deinterleave_eq, this]

/-! ## The frame -/

@[simp] theorem length_frame (pay : List Byte) (tw : Nat) : (frame pay tw).length = tw + pay.length := by simp [frame]

theorem frameFits_iff (tw len cap : Nat) : frameFits tw len cap = true ↔ 8 * (tw + len) ≤ cap := by simp [frameFits]

theorem frameFits_false_iff (tw len cap : Nat) : frameFits tw len cap = false ↔ cap < 8 * (tw + len) := by simp [frameFits]

theorem tagWidth_le_iff (cap w : Nat) : tagWidth cap ≤ w ↔ cap < 2 ^ (8 * w) := by
  rw [tagWidth, ceilDiv_le_iff _ _ _ (by omega), bitLength_le_iff, Nat.mul_comm]

/-- A capacity is below the first number its tag cannot hold (R95, R96). -/
theorem lt_two_pow_tagWidth (cap : Nat) : cap < 2 ^ (8 * tagWidth cap) := (tagWidth_le_iff cap _).1 le_rfl

theorem claimedLength_lt (car : List Byte) (tw n bd : Nat) (hn : 1 ≤ n) : claimedLength car tw n bd < 2 ^ (8 * tw) := by
  have h := leValue_lt (deinterleave car (8 * tw) n bd)
  rwa [length_deinterleave _ _ _ _ hn, ceilDiv_mul_self tw 8 (by omega)] at h

end Sys2Proof.Machine
end

