-- ==== Sys2Proof/Laws/State.lean ====
section
/-! SUPPORT. One lemma for each field after each update of a State: what the update sets, and what it leaves. -/

namespace Sys2Proof.Machine

section
variable (s : State) (v : Word)
@[simp] theorem State.setScount_scount : (s.setScount v).scount = v := rfl
@[simp] theorem State.setScount_plen : (s.setScount v).plen = s.plen := rfl
@[simp] theorem State.setScount_nbits : (s.setScount v).nbits = s.nbits := rfl
@[simp] theorem State.setScount_status : (s.setScount v).status = s.status := rfl
@[simp] theorem State.setScount_rlen : (s.setScount v).rlen = s.rlen := rfl
@[simp] theorem State.setScount_tagw : (s.setScount v).tagw = s.tagw := rfl
@[simp] theorem State.setScount_claimed : (s.setScount v).claimed = s.claimed := rfl
@[simp] theorem State.setScount_cbuf : (s.setScount v).cbuf = s.cbuf := rfl
@[simp] theorem State.setScount_pbuf : (s.setScount v).pbuf = s.pbuf := rfl
@[simp] theorem State.setScount_obuf : (s.setScount v).obuf = s.obuf := rfl
@[simp] theorem State.setScount_background : (s.setScount v).background = s.background := rfl
@[simp] theorem State.setScount_requests : (s.setScount v).requests = s.requests := rfl
@[simp] theorem State.setScount_reply : (s.setScount v).reply = s.reply := rfl
@[simp] theorem State.setScount_mem (sp : Space) : (s.setScount v).mem sp = s.mem sp := by cases sp <;> rfl
@[simp] theorem State.setScount_byteAt (sp : Space) (a : Nat) : (s.setScount v).byteAt sp a = s.byteAt sp a := by cases sp <;> rfl
@[simp] theorem State.setScount_bytesAt (sp : Space) (a n : Nat) : (s.setScount v).bytesAt sp a n = s.bytesAt sp a n := by
  simp [State.bytesAt]
end

section
variable (s : State) (v : Word)
@[simp] theorem State.setPlen_scount : (s.setPlen v).scount = s.scount := rfl
@[simp] theorem State.setPlen_plen : (s.setPlen v).plen = v := rfl
@[simp] theorem State.setPlen_nbits : (s.setPlen v).nbits = s.nbits := rfl
@[simp] theorem State.setPlen_status : (s.setPlen v).status = s.status := rfl
@[simp] theorem State.setPlen_rlen : (s.setPlen v).rlen = s.rlen := rfl
@[simp] theorem State.setPlen_tagw : (s.setPlen v).tagw = s.tagw := rfl
@[simp] theorem State.setPlen_claimed : (s.setPlen v).claimed = s.claimed := rfl
@[simp] theorem State.setPlen_cbuf : (s.setPlen v).cbuf = s.cbuf := rfl
@[simp] theorem State.setPlen_pbuf : (s.setPlen v).pbuf = s.pbuf := rfl
@[simp] theorem State.setPlen_obuf : (s.setPlen v).obuf = s.obuf := rfl
@[simp] theorem State.setPlen_background : (s.setPlen v).background = s.background := rfl
@[simp] theorem State.setPlen_requests : (s.setPlen v).requests = s.requests := rfl
@[simp] theorem State.setPlen_reply : (s.setPlen v).reply = s.reply := rfl
@[simp] theorem State.setPlen_mem (sp : Space) : (s.setPlen v).mem sp = s.mem sp := by cases sp <;> rfl
@[simp] theorem State.setPlen_byteAt (sp : Space) (a : Nat) : (s.setPlen v).byteAt sp a = s.byteAt sp a := by cases sp <;> rfl
@[simp] theorem State.setPlen_bytesAt (sp : Space) (a n : Nat) : (s.setPlen v).bytesAt sp a n = s.bytesAt sp a n := by
  simp [State.bytesAt]
end

section
variable (s : State) (v : Word)
@[simp] theorem State.setNbits_scount : (s.setNbits v).scount = s.scount := rfl
@[simp] theorem State.setNbits_plen : (s.setNbits v).plen = s.plen := rfl
@[simp] theorem State.setNbits_nbits : (s.setNbits v).nbits = v := rfl
@[simp] theorem State.setNbits_status : (s.setNbits v).status = s.status := rfl
@[simp] theorem State.setNbits_rlen : (s.setNbits v).rlen = s.rlen := rfl
@[simp] theorem State.setNbits_tagw : (s.setNbits v).tagw = s.tagw := rfl
@[simp] theorem State.setNbits_claimed : (s.setNbits v).claimed = s.claimed := rfl
@[simp] theorem State.setNbits_cbuf : (s.setNbits v).cbuf = s.cbuf := rfl
@[simp] theorem State.setNbits_pbuf : (s.setNbits v).pbuf = s.pbuf := rfl
@[simp] theorem State.setNbits_obuf : (s.setNbits v).obuf = s.obuf := rfl
@[simp] theorem State.setNbits_background : (s.setNbits v).background = s.background := rfl
@[simp] theorem State.setNbits_requests : (s.setNbits v).requests = s.requests := rfl
@[simp] theorem State.setNbits_reply : (s.setNbits v).reply = s.reply := rfl
@[simp] theorem State.setNbits_mem (sp : Space) : (s.setNbits v).mem sp = s.mem sp := by cases sp <;> rfl
@[simp] theorem State.setNbits_byteAt (sp : Space) (a : Nat) : (s.setNbits v).byteAt sp a = s.byteAt sp a := by cases sp <;> rfl
@[simp] theorem State.setNbits_bytesAt (sp : Space) (a n : Nat) : (s.setNbits v).bytesAt sp a n = s.bytesAt sp a n := by
  simp [State.bytesAt]
end

section
variable (s : State) (v : Word)
@[simp] theorem State.setStatus_scount : (s.setStatus v).scount = s.scount := rfl
@[simp] theorem State.setStatus_plen : (s.setStatus v).plen = s.plen := rfl
@[simp] theorem State.setStatus_nbits : (s.setStatus v).nbits = s.nbits := rfl
@[simp] theorem State.setStatus_status : (s.setStatus v).status = v := rfl
@[simp] theorem State.setStatus_rlen : (s.setStatus v).rlen = s.rlen := rfl
@[simp] theorem State.setStatus_tagw : (s.setStatus v).tagw = s.tagw := rfl
@[simp] theorem State.setStatus_claimed : (s.setStatus v).claimed = s.claimed := rfl
@[simp] theorem State.setStatus_cbuf : (s.setStatus v).cbuf = s.cbuf := rfl
@[simp] theorem State.setStatus_pbuf : (s.setStatus v).pbuf = s.pbuf := rfl
@[simp] theorem State.setStatus_obuf : (s.setStatus v).obuf = s.obuf := rfl
@[simp] theorem State.setStatus_background : (s.setStatus v).background = s.background := rfl
@[simp] theorem State.setStatus_requests : (s.setStatus v).requests = s.requests := rfl
@[simp] theorem State.setStatus_reply : (s.setStatus v).reply = s.reply := rfl
@[simp] theorem State.setStatus_mem (sp : Space) : (s.setStatus v).mem sp = s.mem sp := by cases sp <;> rfl
@[simp] theorem State.setStatus_byteAt (sp : Space) (a : Nat) : (s.setStatus v).byteAt sp a = s.byteAt sp a := by cases sp <;> rfl
@[simp] theorem State.setStatus_bytesAt (sp : Space) (a n : Nat) : (s.setStatus v).bytesAt sp a n = s.bytesAt sp a n := by
  simp [State.bytesAt]
end

section
variable (s : State) (v : Nat)
@[simp] theorem State.setRlen_scount : (s.setRlen v).scount = s.scount := rfl
@[simp] theorem State.setRlen_plen : (s.setRlen v).plen = s.plen := rfl
@[simp] theorem State.setRlen_nbits : (s.setRlen v).nbits = s.nbits := rfl
@[simp] theorem State.setRlen_status : (s.setRlen v).status = s.status := rfl
@[simp] theorem State.setRlen_rlen : (s.setRlen v).rlen = BitVec.ofNat 32 v := rfl
@[simp] theorem State.setRlen_tagw : (s.setRlen v).tagw = s.tagw := rfl
@[simp] theorem State.setRlen_claimed : (s.setRlen v).claimed = s.claimed := rfl
@[simp] theorem State.setRlen_cbuf : (s.setRlen v).cbuf = s.cbuf := rfl
@[simp] theorem State.setRlen_pbuf : (s.setRlen v).pbuf = s.pbuf := rfl
@[simp] theorem State.setRlen_obuf : (s.setRlen v).obuf = s.obuf := rfl
@[simp] theorem State.setRlen_background : (s.setRlen v).background = s.background := rfl
@[simp] theorem State.setRlen_requests : (s.setRlen v).requests = s.requests := rfl
@[simp] theorem State.setRlen_reply : (s.setRlen v).reply = s.reply := rfl
@[simp] theorem State.setRlen_mem (sp : Space) : (s.setRlen v).mem sp = s.mem sp := by cases sp <;> rfl
@[simp] theorem State.setRlen_byteAt (sp : Space) (a : Nat) : (s.setRlen v).byteAt sp a = s.byteAt sp a := by cases sp <;> rfl
@[simp] theorem State.setRlen_bytesAt (sp : Space) (a n : Nat) : (s.setRlen v).bytesAt sp a n = s.bytesAt sp a n := by
  simp [State.bytesAt]
end

section
variable (s : State) (v : Nat)
@[simp] theorem State.setTagw_scount : (s.setTagw v).scount = s.scount := rfl
@[simp] theorem State.setTagw_plen : (s.setTagw v).plen = s.plen := rfl
@[simp] theorem State.setTagw_nbits : (s.setTagw v).nbits = s.nbits := rfl
@[simp] theorem State.setTagw_status : (s.setTagw v).status = s.status := rfl
@[simp] theorem State.setTagw_rlen : (s.setTagw v).rlen = s.rlen := rfl
@[simp] theorem State.setTagw_tagw : (s.setTagw v).tagw = BitVec.ofNat 32 v := rfl
@[simp] theorem State.setTagw_claimed : (s.setTagw v).claimed = s.claimed := rfl
@[simp] theorem State.setTagw_cbuf : (s.setTagw v).cbuf = s.cbuf := rfl
@[simp] theorem State.setTagw_pbuf : (s.setTagw v).pbuf = s.pbuf := rfl
@[simp] theorem State.setTagw_obuf : (s.setTagw v).obuf = s.obuf := rfl
@[simp] theorem State.setTagw_background : (s.setTagw v).background = s.background := rfl
@[simp] theorem State.setTagw_requests : (s.setTagw v).requests = s.requests := rfl
@[simp] theorem State.setTagw_reply : (s.setTagw v).reply = s.reply := rfl
@[simp] theorem State.setTagw_mem (sp : Space) : (s.setTagw v).mem sp = s.mem sp := by cases sp <;> rfl
@[simp] theorem State.setTagw_byteAt (sp : Space) (a : Nat) : (s.setTagw v).byteAt sp a = s.byteAt sp a := by cases sp <;> rfl
@[simp] theorem State.setTagw_bytesAt (sp : Space) (a n : Nat) : (s.setTagw v).bytesAt sp a n = s.bytesAt sp a n := by
  simp [State.bytesAt]
end

section
variable (s : State) (v : Nat)
@[simp] theorem State.setClaimed_scount : (s.setClaimed v).scount = s.scount := rfl
@[simp] theorem State.setClaimed_plen : (s.setClaimed v).plen = s.plen := rfl
@[simp] theorem State.setClaimed_nbits : (s.setClaimed v).nbits = s.nbits := rfl
@[simp] theorem State.setClaimed_status : (s.setClaimed v).status = s.status := rfl
@[simp] theorem State.setClaimed_rlen : (s.setClaimed v).rlen = s.rlen := rfl
@[simp] theorem State.setClaimed_tagw : (s.setClaimed v).tagw = s.tagw := rfl
@[simp] theorem State.setClaimed_claimed : (s.setClaimed v).claimed = BitVec.ofNat 32 v := rfl
@[simp] theorem State.setClaimed_cbuf : (s.setClaimed v).cbuf = s.cbuf := rfl
@[simp] theorem State.setClaimed_pbuf : (s.setClaimed v).pbuf = s.pbuf := rfl
@[simp] theorem State.setClaimed_obuf : (s.setClaimed v).obuf = s.obuf := rfl
@[simp] theorem State.setClaimed_background : (s.setClaimed v).background = s.background := rfl
@[simp] theorem State.setClaimed_requests : (s.setClaimed v).requests = s.requests := rfl
@[simp] theorem State.setClaimed_reply : (s.setClaimed v).reply = s.reply := rfl
@[simp] theorem State.setClaimed_mem (sp : Space) : (s.setClaimed v).mem sp = s.mem sp := by cases sp <;> rfl
@[simp] theorem State.setClaimed_byteAt (sp : Space) (a : Nat) : (s.setClaimed v).byteAt sp a = s.byteAt sp a := by cases sp <;> rfl
@[simp] theorem State.setClaimed_bytesAt (sp : Space) (a n : Nat) : (s.setClaimed v).bytesAt sp a n = s.bytesAt sp a n := by
  simp [State.bytesAt]
end

section
variable (s : State) (v : Reply)
@[simp] theorem State.setReply_scount : (s.setReply v).scount = s.scount := rfl
@[simp] theorem State.setReply_plen : (s.setReply v).plen = s.plen := rfl
@[simp] theorem State.setReply_nbits : (s.setReply v).nbits = s.nbits := rfl
@[simp] theorem State.setReply_status : (s.setReply v).status = s.status := rfl
@[simp] theorem State.setReply_rlen : (s.setReply v).rlen = s.rlen := rfl
@[simp] theorem State.setReply_tagw : (s.setReply v).tagw = s.tagw := rfl
@[simp] theorem State.setReply_claimed : (s.setReply v).claimed = s.claimed := rfl
@[simp] theorem State.setReply_cbuf : (s.setReply v).cbuf = s.cbuf := rfl
@[simp] theorem State.setReply_pbuf : (s.setReply v).pbuf = s.pbuf := rfl
@[simp] theorem State.setReply_obuf : (s.setReply v).obuf = s.obuf := rfl
@[simp] theorem State.setReply_background : (s.setReply v).background = s.background := rfl
@[simp] theorem State.setReply_requests : (s.setReply v).requests = s.requests := rfl
@[simp] theorem State.setReply_reply : (s.setReply v).reply = some v := rfl
@[simp] theorem State.setReply_mem (sp : Space) : (s.setReply v).mem sp = s.mem sp := by cases sp <;> rfl
@[simp] theorem State.setReply_byteAt (sp : Space) (a : Nat) : (s.setReply v).byteAt sp a = s.byteAt sp a := by cases sp <;> rfl
@[simp] theorem State.setReply_bytesAt (sp : Space) (a n : Nat) : (s.setReply v).bytesAt sp a n = s.bytesAt sp a n := by
  simp [State.bytesAt]
end

section
variable (s : State) (v : List Request)
@[simp] theorem State.setRequests_scount : (s.setRequests v).scount = s.scount := rfl
@[simp] theorem State.setRequests_plen : (s.setRequests v).plen = s.plen := rfl
@[simp] theorem State.setRequests_nbits : (s.setRequests v).nbits = s.nbits := rfl
@[simp] theorem State.setRequests_status : (s.setRequests v).status = s.status := rfl
@[simp] theorem State.setRequests_rlen : (s.setRequests v).rlen = s.rlen := rfl
@[simp] theorem State.setRequests_tagw : (s.setRequests v).tagw = s.tagw := rfl
@[simp] theorem State.setRequests_claimed : (s.setRequests v).claimed = s.claimed := rfl
@[simp] theorem State.setRequests_cbuf : (s.setRequests v).cbuf = s.cbuf := rfl
@[simp] theorem State.setRequests_pbuf : (s.setRequests v).pbuf = s.pbuf := rfl
@[simp] theorem State.setRequests_obuf : (s.setRequests v).obuf = s.obuf := rfl
@[simp] theorem State.setRequests_background : (s.setRequests v).background = s.background := rfl
@[simp] theorem State.setRequests_requests : (s.setRequests v).requests = v := rfl
@[simp] theorem State.setRequests_reply : (s.setRequests v).reply = s.reply := rfl
@[simp] theorem State.setRequests_mem (sp : Space) : (s.setRequests v).mem sp = s.mem sp := by cases sp <;> rfl
@[simp] theorem State.setRequests_byteAt (sp : Space) (a : Nat) : (s.setRequests v).byteAt sp a = s.byteAt sp a := by cases sp <;> rfl
@[simp] theorem State.setRequests_bytesAt (sp : Space) (a n : Nat) : (s.setRequests v).bytesAt sp a n = s.bytesAt sp a n := by
  simp [State.bytesAt]
end

section
variable (s : State) (sp : Space) (m : Memory)
@[simp] theorem State.setMem_scount : (s.setMem sp m).scount = s.scount := by cases sp <;> rfl
@[simp] theorem State.setMem_plen : (s.setMem sp m).plen = s.plen := by cases sp <;> rfl
@[simp] theorem State.setMem_nbits : (s.setMem sp m).nbits = s.nbits := by cases sp <;> rfl
@[simp] theorem State.setMem_status : (s.setMem sp m).status = s.status := by cases sp <;> rfl
@[simp] theorem State.setMem_rlen : (s.setMem sp m).rlen = s.rlen := by cases sp <;> rfl
@[simp] theorem State.setMem_tagw : (s.setMem sp m).tagw = s.tagw := by cases sp <;> rfl
@[simp] theorem State.setMem_claimed : (s.setMem sp m).claimed = s.claimed := by cases sp <;> rfl
@[simp] theorem State.setMem_background : (s.setMem sp m).background = s.background := by cases sp <;> rfl
@[simp] theorem State.setMem_requests : (s.setMem sp m).requests = s.requests := by cases sp <;> rfl
@[simp] theorem State.setMem_reply : (s.setMem sp m).reply = s.reply := by cases sp <;> rfl
@[simp] theorem State.setMem_mem_self : (s.setMem sp m).mem sp = m := by cases sp <;> rfl
theorem State.setMem_mem_other (sp' : Space) (h : sp' ≠ sp) : (s.setMem sp m).mem sp' = s.mem sp' := by
  cases sp <;> cases sp' <;> simp_all [State.setMem, State.mem]
end

section
variable (s : State) (sp : Space) (a : Nat) (v : List Byte)
@[simp] theorem State.putBytes_scount : (s.putBytes sp a v).scount = s.scount := by simp [State.putBytes]
@[simp] theorem State.putBytes_plen : (s.putBytes sp a v).plen = s.plen := by simp [State.putBytes]
@[simp] theorem State.putBytes_nbits : (s.putBytes sp a v).nbits = s.nbits := by simp [State.putBytes]
@[simp] theorem State.putBytes_status : (s.putBytes sp a v).status = s.status := by simp [State.putBytes]
@[simp] theorem State.putBytes_rlen : (s.putBytes sp a v).rlen = s.rlen := by simp [State.putBytes]
@[simp] theorem State.putBytes_tagw : (s.putBytes sp a v).tagw = s.tagw := by simp [State.putBytes]
@[simp] theorem State.putBytes_claimed : (s.putBytes sp a v).claimed = s.claimed := by simp [State.putBytes]
@[simp] theorem State.putBytes_background : (s.putBytes sp a v).background = s.background := by simp [State.putBytes]
@[simp] theorem State.putBytes_requests : (s.putBytes sp a v).requests = s.requests := by simp [State.putBytes]
@[simp] theorem State.putBytes_reply : (s.putBytes sp a v).reply = s.reply := by simp [State.putBytes]
end

section
variable (s : State)
@[simp] theorem afterReset_scount : (afterReset s).scount = 0#32 := rfl
@[simp] theorem afterReset_plen : (afterReset s).plen = 0#32 := rfl
@[simp] theorem afterReset_nbits : (afterReset s).nbits = 0#32 := rfl
@[simp] theorem afterReset_status : (afterReset s).status = 0#32 := rfl
@[simp] theorem afterReset_rlen : (afterReset s).rlen = 0#32 := rfl
@[simp] theorem afterReset_tagw : (afterReset s).tagw = 0#32 := rfl
@[simp] theorem afterReset_claimed : (afterReset s).claimed = 0#32 := rfl
@[simp] theorem afterReset_cbuf : (afterReset s).cbuf = [] := rfl
@[simp] theorem afterReset_pbuf : (afterReset s).pbuf = [] := rfl
@[simp] theorem afterReset_obuf : (afterReset s).obuf = [] := rfl
@[simp] theorem afterReset_background : (afterReset s).background = s.background.afterReset := rfl
@[simp] theorem afterReset_requests : (afterReset s).requests = s.requests := rfl
@[simp] theorem afterReset_reply : (afterReset s).reply = none := rfl
end

section
@[simp] theorem State.reset_scount : State.reset.scount = 0#32 := rfl
@[simp] theorem State.reset_plen : State.reset.plen = 0#32 := rfl
@[simp] theorem State.reset_nbits : State.reset.nbits = 0#32 := rfl
@[simp] theorem State.reset_status : State.reset.status = 0#32 := rfl
@[simp] theorem State.reset_rlen : State.reset.rlen = 0#32 := rfl
@[simp] theorem State.reset_tagw : State.reset.tagw = 0#32 := rfl
@[simp] theorem State.reset_claimed : State.reset.claimed = 0#32 := rfl
@[simp] theorem State.reset_cbuf : State.reset.cbuf = [] := rfl
@[simp] theorem State.reset_pbuf : State.reset.pbuf = [] := rfl
@[simp] theorem State.reset_obuf : State.reset.obuf = [] := rfl
@[simp] theorem State.reset_background : State.reset.background = .powerUp 0 := rfl
@[simp] theorem State.reset_requests : State.reset.requests = [] := rfl
@[simp] theorem State.reset_reply : State.reset.reply = none := rfl
end

/-- Two states with the same fields are the same state. -/
theorem State.ext_fields {s t : State} (h1 : s.scount = t.scount) (h2 : s.plen = t.plen) (h3 : s.nbits = t.nbits)
    (h4 : s.status = t.status) (h5 : s.rlen = t.rlen) (h6 : s.tagw = t.tagw) (h7 : s.claimed = t.claimed)
    (h8 : s.cbuf = t.cbuf) (h9 : s.pbuf = t.pbuf) (h10 : s.obuf = t.obuf) (h11 : s.background = t.background)
    (h12 : s.requests = t.requests) (h13 : s.reply = t.reply) : s = t := by
  cases s; cases t; simp_all

end Sys2Proof.Machine
end

