-- ==== Sys2Proof/Laws/Memory.lean ====
section
/-! SUPPORT. The memory laws: BUF_SIZE, read after write, and that every memory operation keeps the canonical form. -/

namespace Sys2Proof.Machine

/-! ## BUF_SIZE -/

theorem bufSize_ge : 256 ≤ Config.bufSize := by simp [Config.bufSize]

theorem bufSize_le : Config.bufSize ≤ 2 ^ 28 := by simp [Config.bufSize]

theorem fitsBuffer_iff (k : Nat) : fitsBuffer k = true ↔ k ≤ Config.bufSize := by
  have := bufSize_ge
  simp [fitsBuffer]; omega

theorem fitsBuffer_false_iff (k : Nat) : fitsBuffer k = false ↔ Config.bufSize < k := by
  have := fitsBuffer_iff k
  cases h : fitsBuffer k <;> simp_all

theorem fitsBuffer_mono {k l : Nat} (h : k ≤ l) (hl : fitsBuffer l = true) : fitsBuffer k = true := by
  rw [fitsBuffer_iff] at *; omega

/-! ## Finding a listed byte -/

theorem find?_insert (m : Memory) (a x : Nat) (b : Byte) :
    (m.insert a b).find? x = if x = a then some b else m.find? x := by
  induction m with
  | nil => simp [Memory.insert, Memory.find?]
  | cons c m ih =>
    obtain ⟨y, c⟩ := c
    simp only [Memory.insert]
    split
    · simp only [Memory.find?]
    · split
      · next h => subst h; by_cases hx : x = a <;> simp [Memory.find?, hx]
      · next h =>
        simp only [Memory.find?, ih]
        by_cases hx : x = y
        · have : x ≠ a := by omega
          simp [hx]; omega
        · simp [hx]

theorem find?_erase (m : Memory) (a x : Nat) :
    (m.erase a).find? x = if x = a then none else m.find? x := by
  induction m with
  | nil => simp [Memory.erase, Memory.find?]
  | cons c m ih =>
    obtain ⟨y, c⟩ := c
    simp only [Memory.erase] at ih
    by_cases hy : y = a
    · subst hy
      simp only [Memory.erase, List.filter_cons, Memory.find?]
      simp only [ne_eq, not_true_eq_false, decide_false, Bool.false_eq_true, if_false, ih]
      by_cases hx : x = y <;> simp [hx]
    · simp only [Memory.erase, List.filter_cons, Memory.find?, hy, ne_eq, not_false_eq_true, decide_true, if_true, ih]
      by_cases hx : x = y
      · simp [hx, hy]
      · simp [hx]

/-! ## Read after write -/

/-- A write sets its byte and leaves every other byte alone. -/
theorem read_write (g : Nat → Byte) (m : Memory) (a x : Nat) (b : Byte) :
    (m.write g a b).read g x = if x = a then b else m.read g x := by
  unfold Memory.write Memory.read
  by_cases hb : b = g a
  · simp only [hb, if_true, find?_erase]
    by_cases hx : x = a <;> simp [hx]
  · simp only [hb, if_false, find?_insert]
    by_cases hx : x = a <;> simp [hx]

/-- A write of a byte sequence sets its bytes and leaves every other byte alone (R41). -/
theorem read_writeAll (g : Nat → Byte) (v : List Byte) (m : Memory) (a x : Nat) :
    (m.writeAll g a v).read g x = if a ≤ x ∧ x < a + v.length then v.getD (x - a) 0#8 else m.read g x := by
  induction v generalizing m a with
  | nil => simp [Memory.writeAll]
  | cons b v ih =>
    simp only [Memory.writeAll, ih, read_write, List.length_cons]
    by_cases h1 : a + 1 ≤ x ∧ x < a + 1 + v.length
    · have h2 : a ≤ x ∧ x < a + (v.length + 1) := by omega
      obtain ⟨k, rfl⟩ : ∃ k, x = a + (k + 1) := ⟨x - a - 1, by omega⟩
      rw [if_pos h1, if_pos h2]
      have e1 : a + (k + 1) - (a + 1) = k := by omega
      have e2 : a + (k + 1) - a = k + 1 := by omega
      simp [e1, e2]
    · rw [if_neg h1]
      by_cases hx : x = a
      · subst hx; simp
      · rw [if_neg hx, if_neg (by omega)]

/-! ## The canonical form -/

/-- Every listed offset is above `a`. -/
def Memory.allAbove (a : Nat) (m : Memory) : Prop := ∀ c ∈ m, a < c.1

theorem rising_cons (x : Nat) (c : Byte) (m : Memory) :
    Memory.rising ((x, c) :: m) = true ↔ m.allAbove x ∧ m.rising = true := by
  induction m generalizing x c with
  | nil => simp [Memory.rising, Memory.allAbove]
  | cons d m ih =>
    obtain ⟨y, d⟩ := d
    simp only [Memory.rising, Bool.and_eq_true, decide_eq_true_eq]
    constructor
    · rintro ⟨h, hr⟩
      refine ⟨?_, hr⟩
      intro e he
      rcases List.mem_cons.1 he with rfl | he
      · exact h
      · exact lt_trans h (((ih y d).1 hr).1 e he)
    · rintro ⟨h, hr⟩
      exact ⟨h (y, d) (by simp), hr⟩

theorem mem_insert_cases {m : Memory} {a : Nat} {b : Byte} {c : Host.Cell} (h : c ∈ m.insert a b) : c = (a, b) ∨ c ∈ m := by
  induction m with
  | nil => simp_all [Memory.insert]
  | cons d m ih =>
    obtain ⟨y, d⟩ := d
    simp only [Memory.insert] at h
    split at h
    · simpa using h
    · split at h
      · rcases List.mem_cons.1 h with h | h
        · exact .inl h
        · exact .inr (List.mem_cons_of_mem _ h)
      · rcases List.mem_cons.1 h with h | h
        · exact .inr (by simp [h])
        · exact (ih h).imp id (List.mem_cons_of_mem _)

theorem rising_insert (m : Memory) (a : Nat) (b : Byte) (h : m.rising = true) : (m.insert a b).rising = true := by
  induction m with
  | nil => simp [Memory.insert, Memory.rising]
  | cons d m ih =>
    obtain ⟨y, d⟩ := d
    have hd := (rising_cons y d m).1 h
    simp only [Memory.insert]
    split
    · next hlt =>
      rw [rising_cons]
      refine ⟨?_, h⟩
      intro c hc
      rcases List.mem_cons.1 hc with rfl | hc
      · exact hlt
      · exact lt_trans hlt (hd.1 c hc)
    · split
      · next heq => subst heq; exact (rising_cons a b m).2 hd
      · rw [rising_cons]
        refine ⟨?_, ih hd.2⟩
        intro c hc
        rcases mem_insert_cases hc with rfl | hc
        · simp only; omega
        · exact hd.1 c hc

theorem rising_erase (m : Memory) (a : Nat) (h : m.rising = true) : (m.erase a).rising = true := by
  induction m with
  | nil => simp [Memory.erase, Memory.rising]
  | cons d m ih =>
    obtain ⟨y, d⟩ := d
    have hd := (rising_cons y d m).1 h
    have ih' := ih hd.2
    simp only [Memory.erase] at ih'
    simp only [Memory.erase, List.filter_cons]
    split
    · rw [rising_cons]
      exact ⟨fun c hc => hd.1 c (List.mem_filter.1 hc).1, ih'⟩
    · exact ih'

theorem wf_iff (g : Nat → Byte) (m : Memory) :
    m.wf g = true ↔ m.rising = true ∧ ∀ c ∈ m, c.1 < Config.bufSize ∧ c.2 ≠ g c.1 := by
  simp only [Memory.wf, Bool.and_eq_true, List.all_eq_true, decide_eq_true_eq, fitsBuffer_iff, Nat.succ_le_iff]

theorem wf_nil (g : Nat → Byte) : Memory.wf g [] = true := by simp [Memory.wf, Memory.rising]

/-- A write inside the buffer keeps the canonical form. -/
theorem wf_write (g : Nat → Byte) (m : Memory) (a : Nat) (b : Byte) (hm : m.wf g = true) (ha : a < Config.bufSize) :
    (m.write g a b).wf g = true := by
  rw [wf_iff] at *
  unfold Memory.write
  split
  · exact ⟨rising_erase m a hm.1, fun c hc => hm.2 c (List.mem_filter.1 hc).1⟩
  · next hb =>
    refine ⟨rising_insert m a b hm.1, fun c hc => ?_⟩
    rcases mem_insert_cases hc with rfl | hc
    · exact ⟨ha, hb⟩
    · exact hm.2 c hc

/-- A write of a byte sequence inside the buffer keeps the canonical form. -/
theorem wf_writeAll (g : Nat → Byte) (v : List Byte) (m : Memory) (a : Nat) (hm : m.wf g = true)
    (ha : a + v.length ≤ Config.bufSize) : (m.writeAll g a v).wf g = true := by
  induction v generalizing m a with
  | nil => simpa [Memory.writeAll] using hm
  | cons b v ih =>
    simp only [List.length_cons] at ha
    exact ih _ _ (wf_write g m a b hm (by omega)) (by omega)

/-! ## The buffers of a state -/

@[simp] theorem State.length_bytesAt (s : State) (sp : Space) (a n : Nat) : (s.bytesAt sp a n).length = n := by
  simp [State.bytesAt]

theorem State.bytesAt_getD (s : State) (sp : Space) (a n k : Nat) (h : k < n) :
    (s.bytesAt sp a n).getD k 0#8 = s.byteAt sp (a + k) := by
  simp [State.bytesAt, List.getD, List.getElem?_map, List.getElem?_range h]

/-- What storing a byte sequence in a buffer does to every byte of every buffer (R41, R28). -/
theorem State.putBytes_byteAt (s : State) (sp sp' : Space) (a x : Nat) (v : List Byte) :
    (s.putBytes sp a v).byteAt sp' x =
      if sp' = sp ∧ a ≤ x ∧ x < a + v.length then v.getD (x - a) 0#8 else s.byteAt sp' x := by
  by_cases h : sp' = sp
  · subst h
    simp [State.byteAt, State.putBytes, read_writeAll]
  · simp [State.byteAt, State.putBytes, State.setMem_mem_other, h]

theorem State.putBytes_byteAt_other (s : State) (sp sp' : Space) (a x : Nat) (v : List Byte) (h : sp' ≠ sp) :
    (s.putBytes sp a v).byteAt sp' x = s.byteAt sp' x := by
  simp [State.putBytes_byteAt, h]

theorem State.putBytes_mem_other (s : State) (sp sp' : Space) (a : Nat) (v : List Byte) (h : sp' ≠ sp) :
    (s.putBytes sp a v).mem sp' = s.mem sp' := by
  simp [State.putBytes, State.setMem_mem_other, h]

end Sys2Proof.Machine
end

