-- ==== Sys2Proof/Laws/Commands.lean ====
section
/-! SUPPORT. What each shared operation and each command can do, said once: the common checks, abort, deliver, and one case
lemma for each meaning. -/

namespace Sys2Proof.Machine

/-! ## The two ways a command ends -/

/-- The state an abort leaves. -/
def aborted (c : Code) (s : State) : State := (s.setStatus c.statusWord).setRlen 0

/-- The state a delivered result leaves. -/
def delivered (len : Nat) (r : List Byte) (s : State) : State :=
  ((s.putBytes .obuf 0 r).setRlen len).setStatus Code.ok.statusWord

theorem statusReserved_statusWord (c : Code) : statusReserved c.statusWord = 0 := by cases c <;> decide

theorem statusCode_statusWord (c : Code) : statusCode c.statusWord = c.number := by cases c <;> decide

theorem statusCode_statusWord_le (c : Code) : statusCode c.statusWord ≤ 5 := by cases c <;> decide

theorem statusCode_ok : statusCode Code.ok.statusWord = 0 := by decide

theorem abort_eq (c : Code) (s : State) : abort c s = .next (aborted c s) := rfl

@[simp] theorem andThen_next (s : State) (k : State → Answer) : andThen (.next s) k = k s := rfl

theorem memRead_eq (sp : Space) (a n : Nat) (s : State) (k : List Byte → Answer) (h : a + n ≤ Config.bufSize) :
    memRead sp a n s k = k (s.bytesAt sp a n) := by
  simp [memRead, (fitsBuffer_iff _).2 h]

theorem memWrite_eq (sp : Space) (a n : Nat) (v : List Byte) (s : State) (hv : v.length = n) (h : a + n ≤ Config.bufSize) :
    memWrite sp a n v s = .next (s.putBytes sp a v) := by
  simp [memWrite, hv, (fitsBuffer_iff _).2 h]

theorem deliver_eq (len : Nat) (r : List Byte) (s : State) (hr : r.length = len) (h : len ≤ Config.bufSize) :
    deliver len r s = .next (delivered len r s) := by
  rw [deliver, memWrite_eq _ _ _ _ _ hr (by omega)]; rfl

theorem InputsKept.refl (s : State) : InputsKept s s := ⟨rfl, rfl, rfl, fun _ => rfl, fun _ => rfl, rfl, rfl, rfl⟩

theorem InputsKept.trans {s t u : State} (h : InputsKept s t) (k : InputsKept t u) : InputsKept s u where
  scount := k.scount.trans h.scount
  plen := k.plen.trans h.plen
  nbits := k.nbits.trans h.nbits
  cbuf a := (k.cbuf a).trans (h.cbuf a)
  pbuf a := (k.pbuf a).trans (h.pbuf a)
  background := k.background.trans h.background
  requests := k.requests.trans h.requests
  reply := k.reply.trans h.reply

theorem inputsKept_setTagw (s : State) (v : Nat) : InputsKept s (s.setTagw v) := by constructor <;> simp

theorem inputsKept_setClaimed (s : State) (v : Nat) : InputsKept s (s.setClaimed v) := by constructor <;> simp

/-- An abort changes STATUS and RLEN only (R115). -/
theorem aborted_eq (c : Code) (s : State) : aborted c s = { s with status := c.statusWord, rlen := 0#32 } := rfl

theorem inputsKept_aborted (c : Code) (s : State) : InputsKept s (aborted c s) := by constructor <;> simp [aborted]

@[simp] theorem aborted_byteAt (c : Code) (s : State) (sp : Space) (a : Nat) : (aborted c s).byteAt sp a = s.byteAt sp a := by
  simp [aborted]

@[simp] theorem aborted_tagw (c : Code) (s : State) : (aborted c s).tagw = s.tagw := rfl
@[simp] theorem aborted_claimed (c : Code) (s : State) : (aborted c s).claimed = s.claimed := rfl
@[simp] theorem delivered_tagw (len : Nat) (r : List Byte) (s : State) : (delivered len r s).tagw = s.tagw := by simp [delivered]
@[simp] theorem delivered_claimed (len : Nat) (r : List Byte) (s : State) : (delivered len r s).claimed = s.claimed := by
  simp [delivered]

theorem toNat_ofNat_of_le_bufSize (k : Nat) (h : k ≤ Config.bufSize) : (BitVec.ofNat 32 k).toNat = k := by
  have := bufSize_le
  simp; omega

/-- A delivered result changes STATUS, RLEN and the result's bytes only (R27, R41). -/
theorem delivered_spec (len : Nat) (r : List Byte) (s : State) (hr : r.length = len) (h : len ≤ Config.bufSize) :
    Succeeded len s (delivered len r s) where
  status := rfl
  rlen := by simp [delivered, toNat_ofNat_of_le_bufSize _ h]
  inputs := by constructor <;> simp [delivered, State.putBytes_byteAt_other]
  obufRest a ha := by
    simp only [delivered, State.setStatus_byteAt, State.setRlen_byteAt, State.putBytes_byteAt]
    rw [if_neg (by omega)]

theorem delivered_byteAt (len : Nat) (r : List Byte) (s : State) (hr : r.length = len) (a : Nat) (ha : a < len) :
    (delivered len r s).byteAt .obuf a = r.getD a 0#8 := by
  simp only [delivered, State.setStatus_byteAt, State.setRlen_byteAt, State.putBytes_byteAt]
  rw [if_pos (by simp; omega), Nat.sub_zero]

/-! ## The common checks -/

theorem depthSupported_bounds (bd : Nat) (h : Config.depthSupported bd = true) : 1 ≤ bd ∧ bd ≤ 255 := by
  simp only [Config.depthSupported, Bool.and_eq_true, decide_eq_true_eq] at h
  exact h.1

theorem failedCheck_none_iff (p : Bool) (n bd : Nat) (s : State) : failedCheck p n bd s = none ↔ ChecksPass p n bd s := by
  unfold failedCheck
  constructor
  · intro h
    split at h <;> try contradiction
    split at h <;> try contradiction
    split at h <;> try contradiction
    split at h <;> try contradiction
    next h1 h2 h3 h4 =>
    simp only [Bool.not_eq_false, depthOk] at h1
    simp only [Bool.not_eq_false, nlsbOk, Bool.and_eq_true, decide_eq_true_eq] at h2
    simp only [Bool.not_eq_false, fitsBuffer_iff] at h3
    simp only [not_and, Bool.not_eq_false, fitsBuffer_iff] at h4
    exact ⟨h1, h2.1, h2.2, h3, h4⟩
  · rintro ⟨h1, h2, h2', h3, h4⟩
    rw [if_neg (by simp [depthOk, h1]), if_neg (by simp [nlsbOk, h2, h2']), if_neg (by simp [fitsBuffer_iff, h3]),
      if_neg (by simp only [not_and, Bool.not_eq_false, fitsBuffer_iff]; exact h4)]

theorem failedCheck_code (p : Bool) (n bd : Nat) (s : State) (c : Code) (h : failedCheck p n bd s = some c) :
    c = .unsupportedSampleWidth ∨ c = .invalidOperand := by
  unfold failedCheck at h
  split at h
  · simp_all
  · split at h
    · simp_all
    · split at h
      · simp_all
      · split at h <;> simp_all

theorem checked_pass (p : Bool) (n bd : Nat) (s : State) (body : Answer) (h : ChecksPass p n bd s) :
    checked p n bd s body = body := by
  rw [checked, (failedCheck_none_iff p n bd s).2 h]

theorem checked_fail (p : Bool) (n bd : Nat) (s : State) (body : Answer) (c : Code) (h : failedCheck p n bd s = some c) :
    checked p n bd s body = .next (aborted c s) := by
  rw [checked, h]; rfl

/-- Either a common check names a code, or all pass (R109). -/
theorem failedCheck_cases (p : Bool) (n bd : Nat) (s : State) :
    (∃ c, failedCheck p n bd s = some c) ∨ ChecksPass p n bd s := by
  cases h : failedCheck p n bd s with
  | some c => exact .inl ⟨c, rfl⟩
  | none => exact .inr ((failedCheck_none_iff p n bd s).1 h)

/-- The carrier's samples number at most BUF_SIZE (R11). -/
theorem ChecksPass.sampleCount_le {p : Bool} {n bd : Nat} {s : State} (h : ChecksPass p n bd s) :
    s.sampleCount ≤ Config.bufSize := by
  have h1 := (depthSupported_bounds bd h.width).1
  have h2 := h.carrier
  have h3 : s.sampleCount * 1 ≤ s.sampleCount * bd := Nat.mul_le_mul_left _ h1
  omega

/-- The tag is never wider than 4 bytes (R95, R11). -/
theorem ChecksPass.tagWidth_le {p : Bool} {n bd : Nat} {s : State} (h : ChecksPass p n bd s) :
    tagWidth (s.capacityBits n) ≤ 4 := by
  rw [tagWidth_le_iff, State.capacityBits]
  have h1 := h.sampleCount_le
  have h2 := bufSize_le
  have h3 : s.sampleCount * n ≤ 2 ^ 28 * 8 := Nat.mul_le_mul (by omega) h.nlsbHigh
  norm_num at *; omega

/-- A byte count whose bits the carrier holds is at most BUF_SIZE (R86, R101). -/
theorem ChecksPass.bytes_le {p : Bool} {n bd : Nat} {s : State} (h : ChecksPass p n bd s) (k : Nat)
    (hk : 8 * k ≤ s.sampleCount * n) : k ≤ s.sampleCount := by
  have : s.sampleCount * n ≤ s.sampleCount * 8 := Nat.mul_le_mul_left _ h.nlsbHigh
  omega

/-- The carrier a command reads (R76). -/
def State.carrier (s : State) (bd : Nat) : List Byte := s.bytesAt .cbuf 0 (s.sampleCount * bd)

/-- The payload a command reads (R76). -/
def State.payload (s : State) : List Byte := s.bytesAt .pbuf 0 s.payloadLength

@[simp] theorem State.length_carrier (s : State) (bd : Nat) : (s.carrier bd).length = s.sampleCount * bd := by
  simp [State.carrier]

@[simp] theorem State.length_payload (s : State) : s.payload.length = s.payloadLength := by simp [State.payload]

theorem State.carrier_getD (s : State) (bd a : Nat) (h : a < s.sampleCount * bd) :
    (s.carrier bd).getD a 0#8 = s.byteAt .cbuf a := by
  rw [State.carrier, State.bytesAt_getD _ _ _ _ _ h, Nat.zero_add]

theorem State.bitAt_payload (s : State) (j : Nat) : bitAt (bitsOf s.payload) j = s.payloadBit j := by
  rw [bitAt_bitsOf, State.payloadBit]
  by_cases h : j < 8 * s.payloadLength
  · rw [State.payload, State.bytesAt_getD _ _ _ _ _ (by omega)]; simp [h]
  · rw [List.getD_eq_getElem?_getD, List.getElem?_eq_none (by simp; omega)]; simp [h]

theorem withCarrier_eq {p : Bool} {n bd : Nat} {s : State} (h : ChecksPass p n bd s) (k : List Byte → Answer) :
    withCarrier bd s k = k (s.carrier bd) := by
  rw [withCarrier, memRead_eq _ _ _ _ _ (by have := h.carrier; omega)]; rfl

theorem withPayload_eq {n bd : Nat} {s : State} (h : ChecksPass true n bd s) (k : List Byte → Answer) :
    withPayload s k = k s.payload := by
  rw [withPayload, memRead_eq _ _ _ _ _ (by have := h.payload rfl; omega)]; rfl

theorem ChecksPass.setTagw {p : Bool} {n bd : Nat} {s : State} (h : ChecksPass p n bd s) (v : Nat) :
    ChecksPass p n bd (s.setTagw v) := ⟨h.width, h.nlsbLow, h.nlsbHigh, h.carrier, h.payload⟩

/-! ## One lemma for each command -/

/-- ILV completes: its own effect (R76). -/
theorem execIlv_done (n bd : Nat) (s : State) (h : ChecksPass true n bd s) (hc : 8 * s.payloadLength ≤ s.sampleCount * n) :
    execIlv n bd s = .next (delivered (s.sampleCount * bd) (interleave (s.carrier bd) s.payload n false bd) s) := by
  rw [execIlv, checked_pass _ _ _ _ _ h, if_neg (by omega), withCarrier_eq h, withPayload_eq h]
  exact deliver_eq _ _ _ (by simp) h.carrier

theorem execIlv_capacity (n bd : Nat) (s : State) (h : ChecksPass true n bd s)
    (hc : s.sampleCount * n < 8 * s.payloadLength) : execIlv n bd s = .next (aborted .capacityExceeded s) := by
  rw [execIlv, checked_pass _ _ _ _ _ h, if_pos hc]; rfl

/-- ILVT completes: its own effect (R77). -/
theorem execIlvt_done (n bd : Nat) (s : State) (h : ChecksPass true n bd s) (hc : 8 * s.payloadLength ≤ s.sampleCount * n) :
    execIlvt n bd s = .next (delivered (bitHeight s.payloadLength n * bd)
      (interleave (s.carrier bd) s.payload n true bd) s) := by
  have hl := length_interleave_trunc (s.carrier bd) s.payload n bd s.sampleCount h.nlsbLow (by simp) (by simpa using hc)
  have hb := bitHeight_le s.payloadLength n s.sampleCount h.nlsbLow hc
  have := Nat.mul_le_mul_right bd hb
  rw [execIlvt, checked_pass _ _ _ _ _ h, if_neg (by omega), withCarrier_eq h, withPayload_eq h]
  exact deliver_eq _ _ _ (by simpa using hl) (le_trans this h.carrier)

theorem execIlvt_capacity (n bd : Nat) (s : State) (h : ChecksPass true n bd s)
    (hc : s.sampleCount * n < 8 * s.payloadLength) : execIlvt n bd s = .next (aborted .capacityExceeded s) := by
  rw [execIlvt, checked_pass _ _ _ _ _ h, if_pos hc]; rfl

/-- DLV completes: its own effect (R86). -/
theorem execDlv_done (n bd : Nat) (s : State) (h : ChecksPass false n bd s) (hc : s.bitCount ≤ s.sampleCount * n) :
    execDlv n bd s = .next (delivered (ceilDiv s.bitCount 8) (deinterleave (s.carrier bd) s.bitCount n bd) s) := by
  have h1 : ceilDiv s.bitCount 8 ≤ s.sampleCount := by
    rw [ceilDiv_le_iff _ _ _ (by omega)]
    exact le_trans hc (Nat.mul_le_mul_left _ h.nlsbHigh)
  rw [execDlv, checked_pass _ _ _ _ _ h, if_neg (by omega), withCarrier_eq h]
  exact deliver_eq _ _ _ (length_deinterleave _ _ _ _ h.nlsbLow) (le_trans h1 h.sampleCount_le)

theorem execDlv_short (n bd : Nat) (s : State) (h : ChecksPass false n bd s) (hc : s.sampleCount * n < s.bitCount) :
    execDlv n bd s = .next (aborted .invalidOperand s) := by
  rw [execDlv, checked_pass _ _ _ _ _ h, if_pos hc]; rfl

/-- HIDE completes: its own effect (R98). -/
theorem execHide_done (n bd : Nat) (s : State) (h : ChecksPass true n bd s)
    (hc : 8 * (tagWidth (s.capacityBits n) + s.payloadLength) ≤ s.capacityBits n) :
    execHide n bd s = .next (delivered (s.sampleCount * bd)
      (interleave (s.carrier bd) (frame s.payload (tagWidth (s.capacityBits n))) n false bd)
      (s.setTagw (tagWidth (s.capacityBits n)))) := by
  have h' := h.setTagw (tagWidth (s.capacityBits n))
  rw [execHide, checked_pass _ _ _ _ _ h]
  simp only []
  rw [if_neg (by rw [Bool.not_eq_false, frameFits_iff]; exact hc), withCarrier_eq h', withPayload_eq h']
  exact deliver_eq _ _ _ (by simp [State.carrier]) h.carrier

theorem execHide_capacity (n bd : Nat) (s : State) (h : ChecksPass true n bd s)
    (hc : s.capacityBits n < 8 * (tagWidth (s.capacityBits n) + s.payloadLength)) :
    execHide n bd s = .next (aborted .capacityExceeded (s.setTagw (tagWidth (s.capacityBits n)))) := by
  rw [execHide, checked_pass _ _ _ _ _ h]
  simp only []
  rw [if_pos (by rw [frameFits_false_iff]; exact hc)]; rfl

/-- The length RCV reads from the tag (R99, R101). -/
def State.claim (s : State) (n bd : Nat) : Nat := claimedLength (s.carrier bd) (tagWidth (s.capacityBits n)) n bd

/-- The bytes RCV recovers (R101). -/
def State.recovered (s : State) (n bd : Nat) : List Byte :=
  ((deinterleave (s.carrier bd) (8 * (tagWidth (s.capacityBits n) + s.claim n bd)) n bd).drop
    (tagWidth (s.capacityBits n))).take (s.claim n bd)

theorem length_recovered (n bd : Nat) (s : State) (hn : 1 ≤ n) : (s.recovered n bd).length = s.claim n bd := by
  simp [State.recovered, length_deinterleave _ _ _ _ hn, ceilDiv_mul_self]

/-- RCV completes: its own effect (R101). -/
theorem execRcv_done (n bd : Nat) (s : State) (h : ChecksPass false n bd s)
    (hc : 8 * (tagWidth (s.capacityBits n) + s.claim n bd) ≤ s.capacityBits n) :
    execRcv n bd s = .next (delivered (s.claim n bd) (s.recovered n bd)
      ((s.setTagw (tagWidth (s.capacityBits n))).setClaimed (s.claim n bd))) := by
  have h' := h.setTagw (tagWidth (s.capacityBits n))
  have h1 : s.claim n bd ≤ s.sampleCount := h.bytes_le _ (by unfold State.capacityBits at hc; omega)
  rw [execRcv, checked_pass _ _ _ _ _ h]
  simp only []
  rw [if_neg (by rw [Bool.not_eq_false, frameFits_iff]; omega), withCarrier_eq h']
  rw [if_neg (by rw [Bool.not_eq_false, frameFits_iff]; exact hc)]
  exact deliver_eq _ _ _ (length_recovered n bd s h.nlsbLow) (le_trans h1 h.sampleCount_le)

theorem execRcv_noTag (n bd : Nat) (s : State) (h : ChecksPass false n bd s)
    (hc : s.capacityBits n < 8 * tagWidth (s.capacityBits n)) :
    execRcv n bd s = .next (aborted .corruptedCarrier ((s.setTagw (tagWidth (s.capacityBits n))).setClaimed 0)) := by
  rw [execRcv, checked_pass _ _ _ _ _ h]
  simp only []
  rw [if_pos (by rw [frameFits_false_iff]; omega)]; rfl

theorem execRcv_corrupted (n bd : Nat) (s : State) (h : ChecksPass false n bd s)
    (ht : 8 * tagWidth (s.capacityBits n) ≤ s.capacityBits n)
    (hc : s.capacityBits n < 8 * (tagWidth (s.capacityBits n) + s.claim n bd)) :
    execRcv n bd s =
      .next (aborted .corruptedCarrier ((s.setTagw (tagWidth (s.capacityBits n))).setClaimed (s.claim n bd))) := by
  have h' := h.setTagw (tagWidth (s.capacityBits n))
  rw [execRcv, checked_pass _ _ _ _ _ h]
  simp only []
  rw [if_neg (by rw [Bool.not_eq_false, frameFits_iff]; omega), withCarrier_eq h']
  rw [if_pos (by rw [frameFits_false_iff]; exact hc)]; rfl

/-! ## The results, bit by bit, in the terms of Safety.lean -/

/-- Every bit of an interleaved carrier, for any byte sequence interleaved (R75). -/
theorem State.interleave_getLsbD (s : State) (pay : List Byte) (stream : Nat → Bool) (n bd a r : Nat) (h8 : n ≤ 8)
    (hb : 1 ≤ bd) (ha : a < s.sampleCount * bd) (hs : ∀ j, bitAt (bitsOf pay) j = stream j) :
    ((interleave (s.carrier bd) pay n false bd).getD a 0#8).getLsbD r =
      s.interleavedBit stream (ceilDiv (8 * pay.length) n) n bd a r := by
  rw [interleave_full_getD _ _ _ _ hb _ (by simpa using ha), State.interleavedBit, bitHeight]
  by_cases h : a % bd = 0 ∧ a / bd < ceilDiv (8 * pay.length) n
  · have e : a / bd * bd = a := by
      have := Nat.div_add_mod a bd
      rw [h.1, Nat.mul_comm] at this; omega
    rw [if_pos h, touchedByte_getLsbD _ _ _ _ _ _ h8, e, s.carrier_getD _ _ ha, hs]
    by_cases hr : r < n
    · rw [if_pos hr, if_pos ⟨h.1, h.2, hr⟩]
    · rw [if_neg hr, if_neg (fun hh => hr hh.2.2)]
  · rw [if_neg h, if_neg (fun hh => h ⟨hh.1, hh.2.1⟩), s.carrier_getD _ _ ha]

/-- The bits HIDE interleaves (R96). -/
theorem State.bitAt_frame (s : State) (tw j : Nat) : bitAt (bitsOf (frame s.payload tw)) j = s.framedBit tw j := by
  rw [frame, bitsOf_append, bitAt_append, State.framedBit]
  simp only [length_bitsOf, length_leBytes, State.length_payload]
  split
  · next h => exact bitAt_leBytes _ _ _ h
  · exact s.bitAt_payload _

/-- The bits DLV and RCV read (R85). -/
theorem State.carrier_getLsbD (s : State) (n bd j : Nat) (h1 : 1 ≤ n) (hb : 1 ≤ bd) (hj : j < s.sampleCount * n) :
    ((s.carrier bd).getD (j / n * bd) 0#8).getLsbD (n - 1 - j % n) = s.carrierBit n bd j := by
  rw [State.carrierBit, s.carrier_getD]
  apply Nat.mul_lt_mul_of_pos_right _ hb
  rwa [Nat.div_lt_iff_lt_mul h1]

theorem State.tagValue_eq_sum (s : State) (n bd tw : Nat) :
    s.tagValue n bd tw = ((List.range tw).map fun k =>
      256 ^ k * ((List.range 8).map fun r => (s.carrierBit n bd (8 * k + r)).toNat * 2 ^ (7 - r)).sum).sum := by
  induction tw with
  | zero => rfl
  | succ t ih =>
    rw [State.tagValue, ih, List.range_succ (n := t), List.map_append, List.sum_append, List.map_cons, List.map_nil,
      List.sum_cons, List.sum_nil, Nat.add_zero]

/-- The length RCV decodes is the number the tag's bits spell (R99). -/
theorem State.claimedLength_eq (s : State) (n bd tw : Nat) (h1 : 1 ≤ n) (hb : 1 ≤ bd) (hc : 8 * tw ≤ s.sampleCount * n) :
    claimedLength (s.carrier bd) tw n bd = s.tagValue n bd tw := by
  have hl : (deinterleave (s.carrier bd) (8 * tw) n bd).length = tw := by
    rw [length_deinterleave _ _ _ _ h1, ceilDiv_mul_self _ _ (by omega)]
  rw [claimedLength, leValue_eq_sum, hl, s.tagValue_eq_sum]
  congr 1
  apply List.map_congr_left
  intro k hk
  have hk := List.mem_range.1 hk
  have hq := length_lsbStream (s.carrier bd) (8 * tw) n bd h1
  rw [deinterleave_eq, packBits_toNat _ _ (by rw [hq, ceilDiv_mul_self _ _ (by omega)]; exact hk)]
  congr 2
  apply List.map_congr_left
  intro r hr
  have hr := List.mem_range.1 hr
  rw [bitAt_lsbStream _ _ _ _ _ h1, s.carrier_getLsbD n bd _ h1 hb (by omega)]
  simp [show 8 * k + r < 8 * tw by omega]

/-! ## What any command can do -/

/-- Whether a command reads the payload (R109, check 5). -/
def usesPayload : Instr → Bool
  | .ilv _ _ => true
  | .ilvt _ _ => true
  | .dlv _ _ => false
  | .hide _ _ => true
  | .rcv _ _ => false

/-- A failed common check decides the outcome of every command (R109). -/
theorem exec_failedCheck (i : Instr) (s : State) (c : Code) (h : failedCheck (usesPayload i) i.nlsb i.bdepth s = some c) :
    exec i s = .next (aborted c s) := by
  cases i <;> exact checked_fail _ _ _ _ _ _ h

/-- The state a command has reached before it ends: the given one, but for TAGW and CLAIMED, and TAGW at most 4. -/
structure TagsWritten (s s1 : State) : Prop where
  sameButTags : ∃ tw cl, s1 = { s with tagw := tw, claimed := cl }
  tagw : s1.tagw = s.tagw ∨ s1.tagw.toNat ≤ 4

theorem TagsWritten.refl (s : State) : TagsWritten s s := ⟨⟨s.tagw, s.claimed, rfl⟩, .inl rfl⟩

theorem TagsWritten.ofTag (s : State) (v : Nat) (hv : v ≤ 4) : TagsWritten s (s.setTagw v) :=
  ⟨⟨_, _, rfl⟩, .inr (by simp; omega)⟩

theorem TagsWritten.ofTags (s : State) (v c : Nat) (hv : v ≤ 4) : TagsWritten s ((s.setTagw v).setClaimed c) :=
  ⟨⟨_, _, rfl⟩, .inr (by simp; omega)⟩

/-- A result delivered on top of the tag registers' writes (R27, R98, R101). -/
theorem TagsWritten.succeeded {s s1 : State} (k : TagsWritten s s1) (len : Nat) (r : List Byte) (hr : r.length = len)
    (h : len ≤ Config.bufSize) : Succeeded len s (delivered len r s1) := by
  obtain ⟨⟨tw, cl, rfl⟩, -⟩ := k
  have := delivered_spec len r { s with tagw := tw, claimed := cl } hr h
  exact ⟨this.status, this.rlen, ⟨this.inputs.scount, this.inputs.plen, this.inputs.nbits, this.inputs.cbuf, this.inputs.pbuf,
    this.inputs.background, this.inputs.requests, this.inputs.reply⟩, this.obufRest⟩

/-- Everything a command can do: abort with a code, or deliver a result that fits OBUF (R107, R115, R41). -/
theorem exec_cases (i : Instr) (s : State) :
    (∃ c s1, c ≠ .ok ∧ TagsWritten s s1 ∧ exec i s = .next (aborted c s1)) ∨
    (∃ len r s1, r.length = len ∧ len ≤ Config.bufSize ∧ TagsWritten s s1 ∧ exec i s = .next (delivered len r s1)) := by
  rcases failedCheck_cases (usesPayload i) i.nlsb i.bdepth s with ⟨c, hf⟩ | h
  · refine .inl ⟨c, s, ?_, .refl s, exec_failedCheck i s c hf⟩
    rcases failedCheck_code _ _ _ _ _ hf with rfl | rfl <;> decide
  cases i with
  | ilv n bd =>
    have h : ChecksPass true n bd s := h
    rcases Nat.lt_or_ge (s.sampleCount * n) (8 * s.payloadLength) with hc | hc
    · exact .inl ⟨_, s, by decide, .refl s, execIlv_capacity n bd s h hc⟩
    · exact .inr ⟨_, _, s, by simp, h.carrier, .refl s, execIlv_done n bd s h hc⟩
  | ilvt n bd =>
    have h : ChecksPass true n bd s := h
    rcases Nat.lt_or_ge (s.sampleCount * n) (8 * s.payloadLength) with hc | hc
    · exact .inl ⟨_, s, by decide, .refl s, execIlvt_capacity n bd s h hc⟩
    · refine .inr ⟨_, _, s, ?_, ?_, .refl s, execIlvt_done n bd s h hc⟩
      · simpa using length_interleave_trunc (s.carrier bd) s.payload n bd s.sampleCount h.nlsbLow (by simp) (by simpa using hc)
      · exact le_trans (Nat.mul_le_mul_right bd (bitHeight_le _ _ _ h.nlsbLow hc)) h.carrier
  | dlv n bd =>
    have h : ChecksPass false n bd s := h
    rcases Nat.lt_or_ge (s.sampleCount * n) s.bitCount with hc | hc
    · exact .inl ⟨_, s, by decide, .refl s, execDlv_short n bd s h hc⟩
    · refine .inr ⟨_, _, s, length_deinterleave _ _ _ _ h.nlsbLow, ?_, .refl s, execDlv_done n bd s h hc⟩
      refine le_trans ?_ h.sampleCount_le
      rw [ceilDiv_le_iff _ _ _ (by omega)]
      exact le_trans hc (Nat.mul_le_mul_left _ h.nlsbHigh)
  | hide n bd =>
    have h : ChecksPass true n bd s := h
    have ht := h.tagWidth_le
    rcases Nat.lt_or_ge (s.capacityBits n) (8 * (tagWidth (s.capacityBits n) + s.payloadLength)) with hc | hc
    · exact .inl ⟨_, _, by decide, .ofTag s _ ht, execHide_capacity n bd s h hc⟩
    · exact .inr ⟨_, _, _, by simp, h.carrier, .ofTag s _ ht, execHide_done n bd s h hc⟩
  | rcv n bd =>
    have h : ChecksPass false n bd s := h
    have ht := h.tagWidth_le
    rcases Nat.lt_or_ge (s.capacityBits n) (8 * tagWidth (s.capacityBits n)) with hw | hw
    · exact .inl ⟨_, _, by decide, .ofTags s _ _ ht, execRcv_noTag n bd s h hw⟩
    rcases Nat.lt_or_ge (s.capacityBits n) (8 * (tagWidth (s.capacityBits n) + s.claim n bd)) with hc | hc
    · exact .inl ⟨_, _, by decide, .ofTags s _ _ ht, execRcv_corrupted n bd s h hw hc⟩
    · refine .inr ⟨_, _, _, length_recovered n bd s h.nlsbLow, ?_, .ofTags s _ _ ht, execRcv_done n bd s h hc⟩
      exact le_trans (h.bytes_le _ (by unfold State.capacityBits at hc; omega)) h.sampleCount_le

end Sys2Proof.Machine
end

