-- ==== Sys2Proof/Laws/Encoding.lean ====
section
/-! SUPPORT. The command word's fields as numbers, and the fields of an assembled word. -/

namespace Sys2Proof

theorem fieldRsv1_eq (w : Word) : fieldRsv1 w = w.toNat / 2 ^ 24 % 2 ^ 8 := by
  simp [fieldRsv1, Nat.shiftRight_eq_div_pow]

theorem fieldBdepth_eq (w : Word) : fieldBdepth w = w.toNat / 2 ^ 16 % 2 ^ 8 := by
  simp [fieldBdepth, Nat.shiftRight_eq_div_pow]

theorem fieldNlsb_eq (w : Word) : fieldNlsb w = w.toNat / 2 ^ 8 % 2 ^ 8 := by
  simp [fieldNlsb, Nat.shiftRight_eq_div_pow]

theorem fieldRsv0_eq (w : Word) : fieldRsv0 w = w.toNat / 2 ^ 5 % 2 ^ 3 := by
  simp [fieldRsv0, Nat.shiftRight_eq_div_pow]

theorem fieldT_eq (w : Word) : fieldT w = decide (w.toNat / 2 ^ 4 % 2 = 1) := by
  rw [fieldT, BitVec.getLsbD, Nat.testBit_eq_decide_div_mod_eq]

theorem fieldOp_eq (w : Word) : fieldOp w = w.toNat % 2 ^ 4 := by
  simp [fieldOp]

/-- The fields of an assembled word, when each operand fits its field (R61). -/
theorem assemble_fields (bd n op : Nat) (t : Bool) (hbd : bd < 256) (hn : n < 256) (hop : op < 16) :
    fieldRsv1 (assemble bd n t op) = 0 ∧ fieldBdepth (assemble bd n t op) = bd ∧ fieldNlsb (assemble bd n t op) = n ∧
      fieldRsv0 (assemble bd n t op) = 0 ∧ fieldT (assemble bd n t op) = t ∧ fieldOp (assemble bd n t op) = op := by
  have hw : (assemble bd n t op).toNat = bd * 2 ^ 16 + n * 2 ^ 8 + t.toNat * 2 ^ 4 + op := by
    rw [assemble, BitVec.toNat_ofNat, Nat.mod_eq_of_lt]
    have : t.toNat ≤ 1 := by cases t <;> simp
    omega
  rw [fieldRsv1_eq, fieldBdepth_eq, fieldNlsb_eq, fieldRsv0_eq, fieldT_eq, fieldOp_eq, hw]
  cases t <;> simp only [Bool.toNat_true, Bool.toNat_false, decide_eq_true_eq, decide_eq_false_iff_not] <;> omega

end Sys2Proof
end

