-- ==== Sys2Proof/Laws/PerInstr.lean ====
section
/-! SUPPORT. Facts about the command as syntax, one lemma for each constructor: the operand fields of its word. -/

namespace Sys2Proof.Laws.OperandFields

/-- The word of a well-formed command carries its two operands and zeros in the reserved fields (R61, R64, R65). -/
def Statement (i : Instr) : Prop :=
  i.WellFormed = true →
    fieldNlsb (encode i) = i.nlsb ∧ fieldBdepth (encode i) = i.bdepth ∧ fieldRsv1 (encode i) = 0 ∧ fieldRsv0 (encode i) = 0

theorem of_assemble {i : Instr} (t : Bool) (op : Nat) (hop : op < 16) (he : encode i = assemble i.bdepth i.nlsb t op) :
    Statement i := by
  intro h
  simp only [Instr.WellFormed, Instr.nlsbFits, Instr.bdepthFits, Bool.and_eq_true, decide_eq_true_eq] at h
  obtain ⟨h1, h2, h3, h4, -, -⟩ := assemble_fields i.bdepth i.nlsb op t h.2 h.1 hop
  rw [he]
  exact ⟨h3, h2, h1, h4⟩

theorem ilv (n bd : Nat) : Statement (.ilv n bd) := of_assemble false 1 (by omega) rfl
theorem ilvt (n bd : Nat) : Statement (.ilvt n bd) := of_assemble true 1 (by omega) rfl
theorem dlv (n bd : Nat) : Statement (.dlv n bd) := of_assemble false 2 (by omega) rfl
theorem hide (n bd : Nat) : Statement (.hide n bd) := of_assemble false 3 (by omega) rfl
theorem rcv (n bd : Nat) : Statement (.rcv n bd) := of_assemble false 4 (by omega) rfl

end Sys2Proof.Laws.OperandFields
end

