-- ==== Sys2Proof/Laws/Step.lean ====
section
/-! SUPPORT. What one step can do, said once: the host port's transactions, the command a CMD write runs, and the parts of the
invariant each state update keeps. -/

namespace Sys2Proof.Machine

/-! ## The step -/

theorem step_nil (s : State) (h : s.requests = []) : step s = .next s := by simp [step, serveNext, h]

theorem step_cons (s : State) (r : Request) (rest : List Request) (h : s.requests = r :: rest) :
    step s = serve r (s.setRequests rest) := by simp [step, serveNext, h]

/-- `Exec(w)` on a command word runs the command (R109). -/
theorem execWord_ok (w : Word) (i : Instr) (s : State) (h : decode w = .ok i) : execWord w s = exec i s := by
  simp [execWord, h]

/-- `Exec(w)` on any other word aborts with IllegalCommand (R109, R114). -/
theorem execWord_error (w : Word) (e : Illegal) (s : State) (h : decode w = .error e) :
    execWord w s = .next (aborted .illegalCommand s) := by
  simp [execWord, h, abort_eq]

/-- Everything `Exec(w)` can do (R107, R109). -/
theorem execWord_cases (w : Word) (s : State) :
    (∃ c s1, c ≠ .ok ∧ TagsWritten s s1 ∧ execWord w s = .next (aborted c s1)) ∨
    (∃ len r s1, r.length = len ∧ len ≤ Config.bufSize ∧ TagsWritten s s1 ∧ execWord w s = .next (delivered len r s1)) := by
  cases h : decode w with
  | ok i => rw [execWord_ok w i s h]; exact exec_cases i s
  | error e => exact .inl ⟨_, s, by decide, .refl s, execWord_error w e s h⟩

theorem execWord_next (w : Word) (s : State) : ∃ t, execWord w s = .next t := by
  rcases execWord_cases w s with ⟨c, s1, -, -, h⟩ | ⟨len, r, s1, -, -, -, h⟩ <;> exact ⟨_, h⟩

/-- A host read changes the reply only (R43, R45, R46). -/
theorem serveRead_eq (sel : Nat) (size : Size) (off : Nat) (s : State) : ∃ r, serveRead sel size off s = s.setReply r := by
  unfold serveRead hostRead32 hostRead8
  repeat' split
  all_goals exact ⟨_, rfl⟩

/-- Everything a host write can do (R44, R45, R46). -/
theorem serveWrite_cases (sel : Nat) (d : Datum) (off : Nat) (s : State) :
    serveWrite sel d off s = .next (s.setReply .err) ∨
    (∃ v, serveWrite sel d off s = .next ((s.setScount v).setReply .ok)) ∨
    (∃ v, serveWrite sel d off s = .next ((s.setPlen v).setReply .ok)) ∨
    (∃ v, serveWrite sel d off s = .next ((s.setNbits v).setReply .ok)) ∨
    (∃ sp a b, a < Config.bufSize ∧ serveWrite sel d off s = .next ((s.putBytes sp a [b]).setReply .ok)) ∨
    (∃ w t, serveWrite sel d off s = .next (t.setReply .ok) ∧ execWord w s = .next t ∧
      Request.write sel d off = cmdWrite w) := by
  have hb : ∀ sp a b, hostWrite8 sp a b s = s.setReply .err ∨
      (a < Config.bufSize ∧ hostWrite8 sp a b s = (s.putBytes sp a [b]).setReply .ok) := by
    intro sp a b
    unfold hostWrite8
    split
    · next h => exact .inr ⟨by rw [fitsBuffer_iff] at h; omega, rfl⟩
    · exact .inl rfl
  have hbyte : ∀ sp a b, (Host.Outcome.next (hostWrite8 sp a b s) : Answer) = .next (s.setReply .err) ∨
      (∃ sp' a' b', a' < Config.bufSize ∧
        (Host.Outcome.next (hostWrite8 sp a b s) : Answer) = .next ((s.putBytes sp' a' [b']).setReply .ok)) := by
    intro sp a b
    rcases hb sp a b with h | ⟨ha, h⟩
    · exact .inl (by rw [h])
    · exact .inr ⟨sp, a, b, ha, by rw [h]⟩
  unfold serveWrite
  split
  · next v =>
    unfold hostWrite32
    split
    · next hr =>
      obtain ⟨t, ht⟩ := execWord_next v s
      refine .inr (.inr (.inr (.inr (.inr ⟨v, t, by rw [ht]; rfl, ht, ?_⟩))))
      have : off = 0 := by
        unfold regAt at hr
        split at hr <;> simp_all
      rw [this]; rfl
    · exact .inr (.inl ⟨v, rfl⟩)
    · exact .inr (.inr (.inl ⟨v, rfl⟩))
    · exact .inr (.inr (.inr (.inl ⟨v, rfl⟩)))
    all_goals exact .inl rfl
  · next b => exact (hbyte .cbuf off b).imp_right fun h => .inr (.inr (.inr (.inl h)))
  · next b => exact (hbyte .pbuf off b).imp_right fun h => .inr (.inr (.inr (.inl h)))
  · next b => exact (hbyte .obuf off b).imp_right fun h => .inr (.inr (.inr (.inl h)))
  · exact .inl rfl

/-! ## The invariant, one update at a time -/

theorem State.Inv.setReply {s : State} (h : s.Inv) (r : Reply) : (s.setReply r).Inv :=
  ⟨h.statusReserved, h.statusCode, h.rlen, h.tagw, h.abortEmpty, h.cbuf, h.pbuf, h.obuf⟩

theorem State.Inv.setRequests {s : State} (h : s.Inv) (q : List Request) : (s.setRequests q).Inv :=
  ⟨h.statusReserved, h.statusCode, h.rlen, h.tagw, h.abortEmpty, h.cbuf, h.pbuf, h.obuf⟩

theorem State.Inv.setScount {s : State} (h : s.Inv) (v : Word) : (s.setScount v).Inv :=
  ⟨h.statusReserved, h.statusCode, h.rlen, h.tagw, h.abortEmpty, h.cbuf, h.pbuf, h.obuf⟩

theorem State.Inv.setPlen {s : State} (h : s.Inv) (v : Word) : (s.setPlen v).Inv :=
  ⟨h.statusReserved, h.statusCode, h.rlen, h.tagw, h.abortEmpty, h.cbuf, h.pbuf, h.obuf⟩

theorem State.Inv.setNbits {s : State} (h : s.Inv) (v : Word) : (s.setNbits v).Inv :=
  ⟨h.statusReserved, h.statusCode, h.rlen, h.tagw, h.abortEmpty, h.cbuf, h.pbuf, h.obuf⟩

theorem wf_mem_putBytes {s : State} (sp sp' : Space) (a : Nat) (v : List Byte)
    (h : (s.mem sp').wf (s.background.byte sp') = true) (ha : a + v.length ≤ Config.bufSize) :
    ((s.putBytes sp a v).mem sp').wf (s.background.byte sp') = true := by
  by_cases hs : sp' = sp
  · subst hs
    rw [State.putBytes, State.setMem_mem_self]
    exact wf_writeAll _ _ _ _ h ha
  · rwa [State.putBytes_mem_other _ _ _ _ _ hs]

/-- A write inside a buffer keeps the invariant. -/
theorem State.Inv.putBytes {s : State} (h : s.Inv) (sp : Space) (a : Nat) (v : List Byte) (ha : a + v.length ≤ Config.bufSize) :
    (s.putBytes sp a v).Inv where
  statusReserved := by simpa using h.statusReserved
  statusCode := by simpa using h.statusCode
  rlen := by simpa using h.rlen
  tagw := by simpa using h.tagw
  abortEmpty := by simpa using h.abortEmpty
  cbuf := by rw [State.putBytes_background]; exact wf_mem_putBytes sp .cbuf a v h.cbuf ha
  pbuf := by rw [State.putBytes_background]; exact wf_mem_putBytes sp .pbuf a v h.pbuf ha
  obuf := by rw [State.putBytes_background]; exact wf_mem_putBytes sp .obuf a v h.obuf ha

theorem State.Inv.tagsWritten {s s1 : State} (h : s.Inv) (k : TagsWritten s s1) : s1.Inv := by
  obtain ⟨⟨tw, cl, rfl⟩, ht⟩ := k
  refine ⟨h.statusReserved, h.statusCode, h.rlen, ?_, h.abortEmpty, h.cbuf, h.pbuf, h.obuf⟩
  rcases ht with ht | ht
  · simp only at ht; simpa [ht] using h.tagw
  · exact ht

/-- An abort keeps the invariant (R32). -/
theorem State.Inv.aborted {s : State} (h : s.Inv) (c : Code) : (aborted c s).Inv where
  statusReserved := statusReserved_statusWord c
  statusCode := statusCode_statusWord_le c
  rlen := by simp [Machine.aborted]
  tagw := h.tagw
  abortEmpty _ := rfl
  cbuf := h.cbuf
  pbuf := h.pbuf
  obuf := h.obuf

/-- A delivered result keeps the invariant (R32). -/
theorem State.Inv.delivered {s : State} (h : s.Inv) (len : Nat) (r : List Byte) (hr : r.length = len) (hl : len ≤ Config.bufSize) :
    (delivered len r s).Inv := by
  have hp := h.putBytes .obuf 0 r (by omega)
  exact {
    statusReserved := statusReserved_statusWord .ok
    statusCode := statusCode_statusWord_le .ok
    rlen := by simp [Machine.delivered, toNat_ofNat_of_le_bufSize _ hl, hl]
    tagw := by simpa [Machine.delivered] using h.tagw
    abortEmpty := fun h0 => absurd statusCode_ok h0
    cbuf := hp.cbuf
    pbuf := hp.pbuf
    obuf := hp.obuf }

end Sys2Proof.Machine
end

