-- ==== Sys2Proof/Tests/Slice0.lean ====
section
/-! SUPPORT. The model's own tests: well-formedness, decoding of words written out from the encoding table, one step of each
command on the vectors of 95_test_vectors.md (named in the comments: V-ILV-5 and so on), the host port, and for each statement
with hypotheses a state and operands that meet them (`test_witness_…`). -/

namespace Sys2Proof.Machine.Tests

/-! ## Small states -/

/-- A buffer that starts with the given bytes. -/
def listed (v : List Byte) : Memory := (List.range v.length).map fun a => (a, v.getD a 0#8)

/-- SCOUNT, PLEN, NBITS, the carrier and the payload; every byte not listed reads as 77H, the rest is as after reset. -/
def small (S L nb : Nat) (car pay : List Byte) : State :=
  { State.reset with
    scount := BitVec.ofNat 32 S, plen := BitVec.ofNat 32 L, nbits := BitVec.ofNat 32 nb, cbuf := listed car, pbuf := listed pay,
    background := .uniform 0x77#8 }

/-- The state an answer holds. -/
def after (o : Answer) : State :=
  match o with
  | .next t => t
  | .fault _ => State.reset
  | .refused _ => State.reset

/-- STATUS, RLEN, TAGW, CLAIMED and the result bytes of an answer. -/
def result (o : Answer) : Option (Nat × Nat × Nat × Nat × List Byte) :=
  match o with
  | .next t =>
    some (t.status.toNat, t.rlen.toNat, t.tagw.toNat, t.claimed.toNat, t.bytesAt .obuf 0 t.rlen.toNat)
  | .fault _ => none
  | .refused _ => none

/-- What the common checks ask, for sizes that fit every BUF_SIZE. -/
theorem checksPass_small (p : Bool) (n bd : Nat) (s : State) (hw : Config.depthSupported bd = true) (h1 : 1 ≤ n) (h8 : n ≤ 8)
    (hc : s.sampleCount * bd ≤ 256) (hp : s.payloadLength ≤ 256) : ChecksPass p n bd s :=
  ⟨hw, h1, h8, le_trans hc bufSize_ge, fun _ => le_trans hp bufSize_ge⟩

/-! ## Well-formedness: one ill-formed term for each check -/

theorem test_wf_nlsb_too_wide : (Instr.ilv 256 1).WellFormed = false := by decide
theorem test_wf_bdepth_too_wide : (Instr.rcv 8 256).WellFormed = false := by decide
theorem test_wf_every_field_value_admitted :
    (Instr.ilv 0 255).WellFormed = true ∧ (Instr.ilvt 255 0).WellFormed = true ∧ (Instr.dlv 255 255).WellFormed = true ∧
    (Instr.hide 0 0).WellFormed = true ∧ (Instr.rcv 9 3).WellFormed = true := by decide

/-! ## Decoding: words written out bit by bit, RSV1 | BDEPTH | NLSB | RSV0 | T | OP (R61, R62) -/

theorem test_decode_ilv : decode 0b00000000_00000001_00000011_000_0_0001#32 = .ok (.ilv 3 1) := rfl
theorem test_decode_ilvt : decode 0b00000000_00000010_00000011_000_1_0001#32 = .ok (.ilvt 3 2) := rfl
theorem test_decode_dlv : decode 0b00000000_00000100_00000011_000_0_0010#32 = .ok (.dlv 3 4) := rfl
theorem test_decode_hide : decode 0b00000000_00000001_00000010_000_0_0011#32 = .ok (.hide 2 1) := rfl
theorem test_decode_rcv : decode 0b00000000_00000001_00001000_000_0_0100#32 = .ok (.rcv 8 1) := rfl
/-- Every operand bit is read: BDEPTH = 80H and 01H, NLSB = 40H and 02H. -/
theorem test_decode_operand_bits :
    decode 0b00000000_10000000_01000000_000_0_0010#32 = .ok (.dlv 64 128) ∧
    decode 0b00000000_00000001_00000010_000_0_0010#32 = .ok (.dlv 2 1) := ⟨rfl, rfl⟩
/-- V-E-8 to V-E-13: OP = 0, OP = 5, T = 1 with OP = 4, RSV1, RSV0, all ones. -/
theorem test_decode_illegal :
    decode 0x00000000#32 = .error .reservedOperation ∧ decode 0x00010205#32 = .error .reservedOperation ∧
    decode 0x00010214#32 = .error .truncateWithoutInterleave ∧ decode 0x01010203#32 = .error .reservedField ∧
    decode 0x00010223#32 = .error .reservedField ∧ decode 0xFFFFFFFF#32 = .error .reservedField := ⟨rfl, rfl, rfl, rfl, rfl, rfl⟩
theorem test_decodeTableWord : decodeTableWord 32 0x00020811 = some (.ilvt 8 2) ∧ decodeTableWord 32 0 = none := by decide
/-- The words of R71's examples. -/
theorem test_encode_examples :
    encode (.hide 2 1) = 0x00010203#32 ∧ encode (.dlv 3 4) = 0x00040302#32 ∧ encode (.ilvt 8 2) = 0x00020811#32 := by decide

/-! ## Helper functions: V-F-1 to V-F-9 -/

theorem test_helpers :
    ceilDiv 8 3 = 3 ∧ ceilDiv 1 8 = 1 ∧ bitLength 255 = 8 ∧ bitLength 256 = 9 ∧ tagWidth 0 = 0 ∧ tagWidth 255 = 1 ∧
    tagWidth 256 = 2 ∧ leBytes 0x012345 3 = [0x45#8, 0x23#8, 0x01#8] ∧ leValue [0x10#8, 0x27#8] = 10000 ∧
    packBits [true, false, true, false, true, false, false, false, true] = [0xA8#8, 0x80#8] ∧
    chunk (bitsOf [0xA5#8]) 3 2 = 2 ∧ chunk (bitsOf [0x9C#8, 0x3E#8]) 5 0 = 0x13 := by decide

/-! ## One step of each command -/

/-- V-ILV-5: the fourth sample's pad bits are zero. -/
theorem test_ilv_pads_with_zeros :
    result (exec (.ilv 5 1) (small 6 2 0 [0xFF#8, 0x00#8, 0xAA#8, 0x55#8, 0xE0#8, 0x1F#8] [0x9C#8, 0x3E#8])) =
      some (0, 6, 0, 0, [0xF3#8, 0x10#8, 0xBF#8, 0x40#8, 0xE0#8, 0x1F#8]) := by decide

/-- V-ILV-6: two-byte samples, only the low bytes change. -/
theorem test_ilv_wide_samples :
    result (exec (.ilv 4 2)
      (small 5 2 0 [0x34#8, 0x12#8, 0x78#8, 0x56#8, 0xBC#8, 0x9A#8, 0xF0#8, 0xDE#8, 0x11#8, 0x22#8] [0xC3#8, 0x5A#8])) =
      some (0, 10, 0, 0, [0x3C#8, 0x12#8, 0x73#8, 0x56#8, 0xB5#8, 0x9A#8, 0xFA#8, 0xDE#8, 0x11#8, 0x22#8]) := by decide

/-- V-ILV-7: the result is the touched samples only. -/
theorem test_ilvt_returns_the_touched_samples :
    result (exec (.ilvt 4 2)
      (small 5 2 0 [0x34#8, 0x12#8, 0x78#8, 0x56#8, 0xBC#8, 0x9A#8, 0xF0#8, 0xDE#8, 0x11#8, 0x22#8] [0xC3#8, 0x5A#8])) =
      some (0, 8, 0, 0, [0x3C#8, 0x12#8, 0x73#8, 0x56#8, 0xB5#8, 0x9A#8, 0xFA#8, 0xDE#8]) := by decide

/-- V-DLV-6: the last byte is filled with zeros. -/
theorem test_dlv_fills_with_zeros :
    result (exec (.dlv 3 1) (small 5 0 10 [0xFD#8, 0xFA#8, 0xF9#8, 0xFF#8, 0x07#8] [])) =
      some (0, 2, 0, 0, [0xA8#8, 0xC0#8]) := by decide

/-- V-DLV-9: one bit too many. -/
theorem test_dlv_carrier_too_short :
    result (exec (.dlv 3 1) (small 5 0 16 [0xFD#8, 0xFA#8, 0xF9#8, 0xFF#8, 0x07#8] [])) = some (4, 0, 0, 0, []) := by decide

/-- V-HIDE-1. -/
theorem test_hide_the_source_scenario :
    result (exec (.hide 2 1) (small 24 2 0 (List.replicate 24 0xFF#8) [0xAB#8, 0xCD#8])) =
      some (0, 24, 1, 0, [0xFC#8, 0xFC#8, 0xFC#8, 0xFE#8, 0xFE#8, 0xFE#8, 0xFE#8, 0xFF#8, 0xFF#8, 0xFC#8, 0xFF#8, 0xFD#8] ++
        List.replicate 12 0xFF#8) := by decide

/-- V-HIDE-4: one byte over; TAGW is written all the same. -/
theorem test_hide_one_byte_over :
    result (exec (.hide 2 1) (small 24 6 0 (List.replicate 24 0x00#8) [1#8, 2#8, 3#8, 4#8, 5#8, 6#8])) =
      some (1, 0, 1, 0, []) := by decide

/-- V-RCV-9: a two-byte tag, least significant byte first. -/
theorem test_rcv_two_byte_tag :
    result (exec (.rcv 8 1) (small 32 0 0 ([0x03#8, 0x00#8, 0x10#8, 0x20#8, 0x30#8] ++ List.replicate 27 0xEE#8) [])) =
      some (0, 3, 2, 3, [0x10#8, 0x20#8, 0x30#8]) := by decide

/-- V-RCV-4: the tag claims 108 bytes. -/
theorem test_rcv_corrupted :
    result (exec (.rcv 2 1) (small 24 0 0 ([0x01#8, 0x02#8, 0x03#8, 0x00#8] ++ List.replicate 20 0xFF#8) [])) =
      some (2, 0, 1, 108, []) := by decide

/-! ## Exec, the host port, the step -/

/-- V-ERR-8: the width is checked before NLSB. -/
theorem test_width_checked_first : result (execWord 0x00000003#32 (small 24 6 0 [] [])) = some (3, 0, 0, 0, []) := by decide

/-- V-H-2, V-H-4, V-H-6, V-H-7: CMD reads as 0; a write to STATUS, a misaligned and an unmapped offset get ERR. -/
theorem test_port_registers :
    (after (step { State.reset with requests := [.read 0 .word 0x00] })).reply = some (.word 0#32) ∧
    (after (step { State.reset with requests := [.write 0 (.word 1#32) 0x04] })).reply = some .err ∧
    (after (step { State.reset with requests := [.read 0 .word 0x02] })).reply = some .err ∧
    (after (step { State.reset with requests := [.read 0 .word 0x20] })).reply = some .err := by decide

/-- V-H-8, one step of it: the byte is listed and the answer is OK. -/
theorem test_port_byte_write :
    after (step { small 0 0 0 [] [] with requests := [.write 1 (.byte 0x7E#8) 255] }) =
      { small 0 0 0 [] [] with cbuf := [(255, 0x7E#8)], reply := some .ok } := by decide

/-- V-H-11: the port answers OK, STATUS becomes 5. -/
theorem test_port_illegal_command :
    after (step (State.reset.withFetchWord 32 0)) = { State.reset with status := 5#32, reply := some .ok } := by decide

/-- The first step from reset with a command placed runs it: V-RCV-12, an empty carrier. -/
theorem test_first_step_runs_the_command :
    result (step (State.reset.withFetchWord 32 0x00010304)) = some (0, 0, 0, 0, []) := by decide

/-- Writing what an unlisted byte reads as takes the entry off (Memory.wf). -/
theorem test_write_of_the_background_unlists :
    ((small 0 0 0 [1#8] []).putBytes .cbuf 0 [0x77#8]).cbuf = [] ∧
    Memory.wf (fun _ => 0x77#8) (small 0 0 0 [1#8, 2#8] []).cbuf = true ∧
    Memory.wf (fun _ => 0x77#8) [(1, 1#8), (0, 1#8)] = false ∧ Memory.wf (fun _ => 0x77#8) [(0, 0x77#8)] = false := by decide

/-! ## Witnesses: the command word and the helper functions -/

theorem test_witness_DecodeEncodeRoundTrip :
    (Instr.ilv 255 255).WellFormed = true ∧ (Instr.ilvt 0 0).WellFormed = true ∧ (Instr.dlv 1 8).WellFormed = true ∧
    (Instr.hide 8 255).WellFormed = true ∧ (Instr.rcv 255 0).WellFormed = true := by decide

theorem test_witness_FieldsComposeTheWord : decode 0x00FF0011#32 = .ok (.ilvt 0 255) := rfl

theorem test_witness_DecodedWordIsItsEncoding : decode 0x00FFFF11#32 = .ok (.ilvt 255 255) := rfl

theorem test_witness_AssemblyWords : 255 < 256 ∧ 0 < 256 := by decide

/-- One word for each reason. -/
theorem test_witness_IllegalWordsAbort :
    (∃ e, decode 0x80000001#32 = .error e) ∧ (∃ e, decode 0x00000081#32 = .error e) ∧ (∃ e, decode 0x00000000#32 = .error e) ∧
    ∃ e, decode 0x00000012#32 = .error e := ⟨⟨_, rfl⟩, ⟨_, rfl⟩, ⟨_, rfl⟩, ⟨_, rfl⟩⟩

theorem test_witness_CeilDivIsLeast : 1 ≤ 1 ∧ 8 ≤ 3 * 3 := by decide

theorem test_witness_LittleEndianBytes : 0 < 2 ^ (8 * 0) ∧ 0xFFFF < 2 ^ (8 * 2) := by decide

/-- Whole bytes and a partly filled last byte. -/
theorem test_witness_BitsAndPacking :
    7 < 8 * [0xA5#8].length ∧ 1 < ceilDiv [true, false, true, false, true, false, false, false, true].length 8 ∧
    8 * 1 + 0 < 9 ∧ ¬8 * 1 + 1 < 9 := by decide

theorem test_witness_ChunkIsMostSignificantFirst : (1 ≤ 1 ∧ 1 ≤ 8) ∧ (1 ≤ 8 ∧ 8 ≤ 8) := by decide

/-! ## Witnesses: the codec and the frame as functions -/

/-- Eight bits into eight one-bit samples, exactly full, and into one eight-bit sample of two bytes; then 16 bits into five-bit
samples of two bytes. -/
theorem test_witness_InterleaveReplacesLowBits :
    ((List.replicate 8 0xFF#8).length = 8 * 1 ∧ 8 * [0xA5#8].length ≤ 8 * 1 ∧ 1 ≤ 1) ∧
    ([1#8, 2#8].length = 1 * 2 ∧ 8 * [0xA5#8].length ≤ 1 * 8 ∧ 8 ≤ 8) ∧
    ((List.replicate 12 0xFF#8).length = 6 * 2 ∧ 8 * [1#8, 2#8].length ≤ 6 * 5 ∧ 11 < 6 * 2) := by decide

/-- A kept high bit (r = 5), a byte after the low one (j = 1), an untouched sample (5) and a pad bit (r = 3). -/
theorem test_witness_InterleaveLeavesTheRestAlone :
    (List.replicate 12 0xFF#8).length = 6 * 2 ∧ 8 * [1#8, 2#8].length ≤ 6 * 5 ∧ 5 ≤ 5 ∧ 1 < 2 ∧
    ceilDiv (8 * [1#8, 2#8].length) 5 ≤ 5 ∧ 5 < 6 ∧
    3 < 5 * ceilDiv (8 * [1#8, 2#8].length) 5 - 8 * [1#8, 2#8].length := by decide

theorem test_witness_InterleaveLengthAndPrefix :
    (List.replicate 12 0xFF#8).length = 6 * 2 ∧ 8 * [1#8, 2#8].length ≤ 6 * 5 ∧
    7 < ceilDiv (8 * [1#8, 2#8].length) 5 * 2 := by decide

/-- An exactly full carrier, and an empty one with an empty payload. -/
theorem test_witness_DeinterleaveInvertsInterleave :
    ([1#8, 2#8].length = 2 * 1 ∧ 8 * [0xA5#8, 0x5A#8].length ≤ 2 * 8) ∧
    (([] : List Byte).length = 0 * 3 ∧ 8 * ([] : List Byte).length ≤ 0 * 1) := by decide

/-- The last bit left out. -/
theorem test_witness_DeinterleaveOfAPrefix :
    [1#8, 2#8].length = 2 * 1 ∧ 8 * [0xA5#8, 0x5A#8].length ≤ 2 * 8 ∧ 15 ≤ 8 * [0xA5#8, 0x5A#8].length := by decide

/-- Two carriers that differ in the three low bits of the first sample. -/
theorem test_witness_InterleaveForgetsAndRepeats :
    [0xFF#8, 0xFF#8, 0xFF#8].length = 3 * 1 ∧ [0xF8#8, 0xFF#8, 0xFF#8].length = 3 * 1 ∧ 8 * [0xA5#8].length ≤ 3 * 3 ∧
    (∀ a, a < 3 * 1 → ¬(a % 1 = 0 ∧ a / 1 < ceilDiv (8 * [0xA5#8].length) 3) →
      [0xFF#8, 0xFF#8, 0xFF#8].getD a 0#8 = [0xF8#8, 0xFF#8, 0xFF#8].getD a 0#8) ∧
    ∀ i r, i < ceilDiv (8 * [0xA5#8].length) 3 → 3 ≤ r →
      ([0xFF#8, 0xFF#8, 0xFF#8].getD (i * 1) 0#8).getLsbD r = ([0xF8#8, 0xFF#8, 0xFF#8].getD (i * 1) 0#8).getLsbD r := by
  refine ⟨by decide, by decide, by decide, by decide, fun i r hi hr => ?_⟩
  by_cases h : r < 8
  · have key : ∀ i, i < 3 → ∀ r, r < 8 → 3 ≤ r →
        ([0xFF#8, 0xFF#8, 0xFF#8].getD (i * 1) 0#8).getLsbD r = ([0xF8#8, 0xFF#8, 0xFF#8].getD (i * 1) 0#8).getLsbD r := by decide
    exact key i hi r h hr
  · rw [BitVec.getLsbD_of_ge _ _ (by omega), BitVec.getLsbD_of_ge _ _ (by omega)]

/-- V-DLV-6: ten bits, so bits 10 to 15 of the result are fill; and no bits at all. -/
theorem test_witness_DeinterleaveReadsTheStream :
    ceilDiv 10 3 * 1 ≤ [0xFD#8, 0xFA#8, 0xF9#8, 0xFF#8, 0x07#8].length ∧ 15 < 8 * ceilDiv 10 8 ∧
    ceilDiv 0 8 * 2 ≤ ([] : List Byte).length := by decide

theorem test_witness_TagWidthValues :
    tagWidth 0 = 0 ∧ tagWidth 1 = 1 ∧ tagWidth 255 = 1 ∧ tagWidth 256 = 2 ∧ tagWidth 65535 = 2 ∧ tagWidth 65536 = 3 ∧
    tagWidth (2 ^ 24 - 1) = 3 ∧ tagWidth (2 ^ 24) = 4 ∧ tagWidth (2 ^ 32 - 1) = 4 := by decide

theorem test_witness_TagFitsAndHoldsTheLength : 48 ≤ 2 ^ 31 ∧ 8 * (tagWidth 48 + 5) ≤ 48 := by decide

/-! ## Witnesses: the commands -/

/-- No common check passes at sample width 0. -/
theorem not_checksPass_zero (p : Bool) (n : Nat) (s : State) : ¬ChecksPass p n 0 s := fun h => absurd h.width (by decide)

/-- Exactly full at one bit a sample and at eight, one byte over, and a failed check. -/
theorem test_witness_IlvInterleaves :
    (ChecksPass true 1 1 (small 8 1 0 [] []) ∧
      8 * (small 8 1 0 [] []).payloadLength ≤ (small 8 1 0 [] []).sampleCount * 1) ∧
    (ChecksPass true 8 8 (small 32 32 0 [] []) ∧
      8 * (small 32 32 0 [] []).payloadLength ≤ (small 32 32 0 [] []).sampleCount * 8) ∧
    (ChecksPass true 1 1 (small 8 2 0 [] []) ∧
      (small 8 2 0 [] []).sampleCount * 1 < 8 * (small 8 2 0 [] []).payloadLength) ∧
    ¬ChecksPass true 1 0 (small 8 1 0 [] []) :=
  ⟨⟨checksPass_small _ _ _ _ (by decide) (by decide) (by decide) (by decide) (by decide), by decide⟩,
    ⟨checksPass_small _ _ _ _ (by decide) (by decide) (by decide) (by decide) (by decide), by decide⟩,
    ⟨checksPass_small _ _ _ _ (by decide) (by decide) (by decide) (by decide) (by decide), by decide⟩,
    not_checksPass_zero _ _ _⟩

/-- Exactly full, one byte over, and a failed check. -/
theorem test_witness_IlvtInterleavesAPrefix :
    (ChecksPass true 4 2 (small 4 2 0 [] []) ∧
      8 * (small 4 2 0 [] []).payloadLength ≤ (small 4 2 0 [] []).sampleCount * 4) ∧
    (ChecksPass true 4 2 (small 4 3 0 [] []) ∧
      (small 4 3 0 [] []).sampleCount * 4 < 8 * (small 4 3 0 [] []).payloadLength) ∧
    ¬ChecksPass true 9 1 (small 4 2 0 [] []) :=
  ⟨⟨checksPass_small _ _ _ _ (by decide) (by decide) (by decide) (by decide) (by decide), by decide⟩,
    ⟨checksPass_small _ _ _ _ (by decide) (by decide) (by decide) (by decide) (by decide), by decide⟩,
    fun h => absurd h.nlsbHigh (by decide)⟩

theorem test_witness_IlvtIsAPrefixOfIlv :
    ChecksPass true 3 1 (small 8 1 0 [] []) ∧
    8 * (small 8 1 0 [] []).payloadLength ≤ (small 8 1 0 [] []).sampleCount * 3 :=
  ⟨checksPass_small _ _ _ _ (by decide) (by decide) (by decide) (by decide) (by decide), by decide⟩

/-- Every bit of the carrier, one bit more, and a failed check. -/
theorem test_witness_DlvDeinterleaves :
    (ChecksPass false 3 1 (small 5 0 15 [] []) ∧ (small 5 0 15 [] []).bitCount ≤ (small 5 0 15 [] []).sampleCount * 3) ∧
    (ChecksPass false 3 1 (small 5 0 16 [] []) ∧ (small 5 0 16 [] []).sampleCount * 3 < (small 5 0 16 [] []).bitCount) ∧
    ¬ChecksPass false 3 0 (small 5 0 15 [] []) :=
  ⟨⟨checksPass_small _ _ _ _ (by decide) (by decide) (by decide) (by decide) (by decide), by decide⟩,
    ⟨checksPass_small _ _ _ _ (by decide) (by decide) (by decide) (by decide) (by decide), by decide⟩,
    not_checksPass_zero _ _ _⟩

/-- The tag alone fills the carrier, one byte over, and a failed check. -/
theorem test_witness_HideFramesAndInterleaves :
    (ChecksPass true 1 1 (small 8 0 0 [] []) ∧
      8 * (tagWidth ((small 8 0 0 [] []).sampleCount * 1) + (small 8 0 0 [] []).payloadLength) ≤
        (small 8 0 0 [] []).sampleCount * 1) ∧
    (ChecksPass true 1 1 (small 8 1 0 [] []) ∧
      (small 8 1 0 [] []).sampleCount * 1 <
        8 * (tagWidth ((small 8 1 0 [] []).sampleCount * 1) + (small 8 1 0 [] []).payloadLength)) ∧
    ¬ChecksPass true 1 0 (small 8 0 0 [] []) :=
  ⟨⟨checksPass_small _ _ _ _ (by decide) (by decide) (by decide) (by decide) (by decide), by decide⟩,
    ⟨checksPass_small _ _ _ _ (by decide) (by decide) (by decide) (by decide) (by decide), by decide⟩,
    not_checksPass_zero _ _ _⟩

/-- V-RCV-5's tag, at the limit; a capacity of 7; V-RCV-4's tag; a failed check. -/
theorem test_witness_RcvRecovers :
    (ChecksPass false 2 1 (small 24 0 0 [0#8, 0#8, 1#8, 1#8] []) ∧
      8 * (tagWidth 48 + (small 24 0 0 [0#8, 0#8, 1#8, 1#8] []).tagValue 2 1 (tagWidth 48)) ≤ 48) ∧
    (ChecksPass false 1 1 (small 7 0 0 [] []) ∧ (small 7 0 0 [] []).sampleCount * 1 < 8 * tagWidth 7) ∧
    (ChecksPass false 2 1 (small 24 0 0 [1#8, 2#8, 3#8, 0#8] []) ∧ 8 * tagWidth 48 ≤ 48 ∧
      48 < 8 * (tagWidth 48 + (small 24 0 0 [1#8, 2#8, 3#8, 0#8] []).tagValue 2 1 (tagWidth 48))) ∧
    ¬ChecksPass false 2 0 (small 24 0 0 [] []) :=
  ⟨⟨checksPass_small _ _ _ _ (by decide) (by decide) (by decide) (by decide) (by decide), by decide⟩,
    ⟨checksPass_small _ _ _ _ (by decide) (by decide) (by decide) (by decide) (by decide), by decide⟩,
    ⟨checksPass_small _ _ _ _ (by decide) (by decide) (by decide) (by decide) (by decide), by decide⟩,
    not_checksPass_zero _ _ _⟩

/-! ## Witnesses: errors -/

/-- Each check at the first value that fails it: an illegal word, width 0, NLSB 0 and 9, a carrier and a payload larger than
every BUF_SIZE, one bit more than the carrier holds. -/
theorem test_witness_ChecksDecideInOrder :
    (∃ e, decode 0x00000000#32 = .error e) ∧ decode 0x00010203#32 = .ok (.hide 2 1) ∧
    Config.depthSupported (Instr.hide 2 0).bdepth = false ∧
    (Config.depthSupported (Instr.dlv 0 1).bdepth = true ∧ (Instr.dlv 0 1).nlsb < 1) ∧
    (Config.depthSupported (Instr.dlv 9 1).bdepth = true ∧ 8 < (Instr.dlv 9 1).nlsb) ∧
    Config.bufSize < (small (2 ^ 28 + 1) 0 0 [] []).sampleCount * 1 ∧
    ((small 0 (2 ^ 28 + 1) 0 [] []).sampleCount * 1 ≤ Config.bufSize ∧
      Config.bufSize < (small 0 (2 ^ 28 + 1) 0 [] []).payloadLength) ∧
    ((small 5 0 16 [] []).sampleCount * 1 ≤ Config.bufSize ∧
      (small 5 0 16 [] []).sampleCount * 3 < (small 5 0 16 [] []).bitCount) :=
  ⟨⟨_, rfl⟩, rfl, by decide, by decide, by decide, lt_of_le_of_lt bufSize_le (by decide),
    ⟨le_trans (by decide) bufSize_ge, lt_of_le_of_lt bufSize_le (by decide)⟩, le_trans (by decide) bufSize_ge, by decide⟩

/-- An abort; TAGW and CLAIMED change in aborts of HIDE and RCV. -/
theorem test_witness_EveryCommandEndsWithOneCode :
    (after (execWord 0x00010203#32 (small 24 6 0 [] []))).status ≠ 0#32 ∧
    (after (execWord 0x00010203#32 (small 24 6 0 [] []))).tagw ≠ (small 24 6 0 [] []).tagw ∧
    (after (execWord 0x00010204#32 (small 24 0 0 [1#8, 2#8, 3#8, 0#8] []))).claimed ≠ (small 24 0 0 [] []).claimed := by decide

theorem test_witness_AbortLeavesEveryBuffer :
    (after (execWord 0x00010302#32 (small 5 0 16 [1#8] []))).status ≠ 0#32 := by decide

theorem test_witness_RepeatedAbortIsTheSame :
    execWord 0x00010203#32 (small 24 6 0 [] []) = .next (after (execWord 0x00010203#32 (small 24 6 0 [] []))) ∧
    (after (execWord 0x00010203#32 (small 24 6 0 [] []))).status ≠ 0#32 := ⟨rfl, by decide⟩

/-- Its last clause. -/
theorem test_witness_CorruptedCarrierExactlyWhen : ChecksPass false 1 1 (small 7 0 0 [] []) :=
  checksPass_small _ _ _ _ (by decide) (by decide) (by decide) (by decide) (by decide)

/-! ## Witnesses: whole-machine rules and framing laws -/

/-- Two states that differ in OBUF, the result registers and what the host has issued. -/
theorem test_witness_ResultDependsOnInputsOnly :
    let s1 := small 8 1 0 [1#8] [2#8]
    let s2 := { s1 with obuf := [(0, 5#8)], status := 2#32, rlen := 7#32, tagw := 4#32, requests := [.reset] }
    s1 ≠ s2 ∧ s1.scount = s2.scount ∧ s1.plen = s2.plen ∧ s1.nbits = s2.nbits ∧
    ∀ a, a < Config.bufSize → s1.byteAt .cbuf a = s2.byteAt .cbuf a ∧ s1.byteAt .pbuf a = s2.byteAt .pbuf a :=
  ⟨by decide, rfl, rfl, rfl, fun _ _ => ⟨rfl, rfl⟩⟩

/-- Two carriers that differ from the fourth sample on. -/
theorem test_witness_IlvtReadsItsPrefixOnly :
    let s1 := small 8 1 0 [1#8, 2#8, 3#8, 4#8] [0xA5#8]
    let s2 := small 8 1 0 [1#8, 2#8, 3#8, 5#8] [0xA5#8]
    s1.scount = s2.scount ∧ s1.plen = s2.plen ∧ (∀ a, a < s1.payloadLength → s1.byteAt .pbuf a = s2.byteAt .pbuf a) ∧
    (∀ a, a < ceilDiv (8 * s1.payloadLength) 3 * 1 → s1.byteAt .cbuf a = s2.byteAt .cbuf a) ∧
    s1.byteAt .cbuf 3 ≠ s2.byteAt .cbuf 3 := by decide

/-- A full and a truncated carrier. -/
theorem test_witness_DlvReadsItsLowBytesOnly :
    let s1 := small 5 0 6 [1#8, 2#8, 3#8, 4#8] []
    let s2 := small 2 0 6 [1#8, 9#8, 3#8, 9#8] []
    ChecksPass false 3 2 s1 ∧ ChecksPass false 3 2 s2 ∧ s1.bitCount ≤ s1.sampleCount * 3 ∧
    s2.bitCount ≤ s2.sampleCount * 3 ∧ s1.nbits = s2.nbits ∧
    ∀ i, i < ceilDiv s1.bitCount 3 → s1.byteAt .cbuf (i * 2) = s2.byteAt .cbuf (i * 2) :=
  ⟨checksPass_small _ _ _ _ (by decide) (by decide) (by decide) (by decide) (by decide),
    checksPass_small _ _ _ _ (by decide) (by decide) (by decide) (by decide) (by decide), by decide, by decide, by decide,
    by decide⟩

/-- HIDE's result copied into CBUF: the state `u` of the statement. -/
theorem test_witness_HideThenRcvRoundTrip :
    let s := small 16 1 0 [] [0xA5#8]
    let t := after (exec (.hide 1 1) s)
    let u := { s with cbuf := t.obuf }
    ChecksPass true 1 1 s ∧ 8 * (tagWidth (s.sampleCount * 1) + s.payloadLength) ≤ s.sampleCount * 1 ∧
    u.scount = s.scount ∧ ∀ a, a < s.sampleCount * 1 → u.byteAt .cbuf a = t.byteAt .obuf a :=
  ⟨checksPass_small _ _ _ _ (by decide) (by decide) (by decide) (by decide) (by decide), by decide, rfl, by decide⟩

/-- Capacities 8 (Lmax = 0 and one more), 0 and 7. -/
theorem test_witness_CapacityBoundary :
    (ChecksPass true 1 1 (small 8 0 0 [] []) ∧ (small 8 0 0 [] []).payloadLength ≤ 8 / 8 - tagWidth 8) ∧
    (ChecksPass true 1 1 (small 8 1 0 [] []) ∧ 8 / 8 - tagWidth 8 < (small 8 1 0 [] []).payloadLength) ∧
    (ChecksPass true 1 1 (small 0 1 0 [] []) ∧ (small 0 1 0 [] []).sampleCount * 1 = 0) ∧
    (ChecksPass true 1 1 (small 7 0 0 [] []) ∧ (small 7 0 0 [] []).sampleCount * 1 ≤ 7) :=
  ⟨⟨checksPass_small _ _ _ _ (by decide) (by decide) (by decide) (by decide) (by decide), by decide⟩,
    ⟨checksPass_small _ _ _ _ (by decide) (by decide) (by decide) (by decide) (by decide), by decide⟩,
    ⟨checksPass_small _ _ _ _ (by decide) (by decide) (by decide) (by decide) (by decide), by decide⟩,
    checksPass_small _ _ _ _ (by decide) (by decide) (by decide) (by decide) (by decide), by decide⟩

/-- Different widths, payloads and carriers, one SCOUNT. -/
theorem test_witness_TagWidthIsDetermined :
    ChecksPass true 8 1 (small 32 9 0 [] []) ∧ ChecksPass false 8 2 (small 32 0 0 [5#8] []) ∧
    (small 32 9 0 [] []).scount = (small 32 0 0 [5#8] []).scount :=
  ⟨checksPass_small _ _ _ _ (by decide) (by decide) (by decide) (by decide) (by decide),
    checksPass_small _ _ _ _ (by decide) (by decide) (by decide) (by decide) (by decide), by decide⟩

theorem test_witness_RcvSignalsOrBounds : ChecksPass false 8 4 (small 64 0 0 [255#8] []) :=
  checksPass_small _ _ _ _ (by decide) (by decide) (by decide) (by decide) (by decide)

/-- A state whose payload is the framed payload of another. -/
theorem test_witness_HideIsIlvOfTheFrame :
    let s := small 16 1 0 [1#8] [0xA5#8]
    let u := small 16 2 0 [1#8] [0x01#8, 0xA5#8]
    ChecksPass true 1 1 s ∧ 8 * (tagWidth (s.sampleCount * 1) + s.payloadLength) ≤ s.sampleCount * 1 ∧ u.scount = s.scount ∧
    u.payloadLength = tagWidth (s.sampleCount * 1) + s.payloadLength ∧
    (∀ a, a < s.sampleCount * 1 → u.byteAt .cbuf a = s.byteAt .cbuf a) ∧
    u.bytesAt .pbuf 0 u.payloadLength = frame (s.bytesAt .pbuf 0 s.payloadLength) (tagWidth (s.sampleCount * 1)) :=
  ⟨checksPass_small _ _ _ _ (by decide) (by decide) (by decide) (by decide) (by decide), by decide, by decide, by decide,
    by decide, by decide⟩

/-- RCV on V-RCV-5's carrier, and DLV of the whole frame. -/
theorem test_witness_RcvIsASliceOfDlv :
    let s := small 24 0 0 [0#8, 0#8, 1#8, 1#8] []
    let t := after (exec (.rcv 2 1) s)
    let u := small 24 0 48 [0#8, 0#8, 1#8, 1#8] []
    ChecksPass false 2 1 s ∧ exec (.rcv 2 1) s = .next t ∧ t.status = 0#32 ∧ u.scount = s.scount ∧
    (∀ a, a < s.sampleCount * 1 → u.byteAt .cbuf a = s.byteAt .cbuf a) ∧
    u.bitCount = 8 * (t.tagw.toNat + t.claimed.toNat) :=
  ⟨checksPass_small _ _ _ _ (by decide) (by decide) (by decide) (by decide) (by decide), rfl, by decide, by decide,
    by decide, by decide⟩

/-! ## Witnesses: the host port, the step, the invariant -/

/-- The last byte of the smallest BUF_SIZE. -/
theorem test_witness_MemReadAndMemWrite : 255 + 1 ≤ Config.bufSize ∧ [7#8].length = 1 := ⟨bufSize_ge, rfl⟩

theorem test_witness_HostByteAccess :
    255 < Config.bufSize ∧
    ({ State.reset with requests := [.read Space.obuf.select .byte 255] } : State).requests =
      .read Space.obuf.select .byte 255 :: [] ∧
    ({ State.reset with requests := [.write Space.pbuf.select (.byte 7#8) 255] } : State).requests =
      .write Space.pbuf.select (.byte 7#8) 255 :: [] := ⟨bufSize_ge, rfl, rfl⟩

/-- A command word as the oldest transaction. -/
theorem test_witness_StepRunsTheDecodedCommand :
    decode 0x00010301#32 = .ok (.ilv 3 1) ∧
    ({ State.reset with requests := [cmdWrite 0x00010301#32, .reset] } : State).requests =
      cmdWrite 0x00010301#32 :: [.reset] := ⟨rfl, rfl⟩

/-- Two transactions, and none. -/
theorem test_witness_StepServesTheOldestTransaction :
    ({ State.reset with requests := [.read 0 .word 0, .reset] } : State).requests = .read 0 .word 0 :: [.reset] ∧
    State.reset.requests = [] := ⟨rfl, rfl⟩

/-- A write to CMD, a read, and a write to CBUF. -/
theorem test_witness_OnlyTheseEventsWrite :
    cmdWrite 0x00010301#32 ≠ .reset ∧ Request.read 0 .word 4 ≠ .reset ∧
    (∀ w, Request.write 1 (.byte 7#8) 0 ≠ cmdWrite w) := by
  refine ⟨by decide, by decide, fun w h => ?_⟩
  simp [cmdWrite] at h

/-- Each of the eight offsets, in a state whose registers differ. -/
theorem test_witness_HostRead32Answers :
    let s : State := { State.reset with scount := 1#32, plen := 2#32, nbits := 3#32, status := 0#32, rlen := 4#32, tagw := 5#32 }
    ∀ off, off ∈ [0x00, 0x04, 0x08, 0x0C, 0x10, 0x14, 0x18, 0x1C] →
      ∃ v : Word, (off, v) ∈ [(0x00, 0#32), (0x04, s.status), (0x08, s.scount), (0x0C, s.plen), (0x10, s.nbits),
        (0x14, s.rlen), (0x18, s.tagw), (0x1C, s.claimed)] := by
  intro s off h
  simp only [List.mem_cons, List.not_mem_nil, or_false] at h
  rcases h with rfl | rfl | rfl | rfl | rfl | rfl | rfl | rfl <;> exact ⟨_, by simp; rfl⟩

/-- A write to an operand register and to a read-only one. -/
theorem test_witness_HostWrite32Answers :
    ({ State.reset with requests := [.write 0 (.word 9#32) 0x08] } : State).requests = .write 0 (.word 9#32) 0x08 :: [] ∧
    0x1C ∈ [0x04, 0x14, 0x18, 0x1C] ∧ (∀ w, Request.write 0 (.word 9#32) 0x08 ≠ cmdWrite w) := by
  refine ⟨rfl, by decide, fun w h => ?_⟩
  simp [cmdWrite] at h

/-- Each way to be illegal, at its first value. -/
theorem test_witness_IllegalAccessAnswersErr :
    0x20 ≤ 0x20 ∧ 0x1D % 4 ≠ 0 ∧ Config.bufSize ≤ 2 ^ 28 ∧ 3 < 4 ∧ Size.byte ≠ .word ∧ Size.other 16 ≠ .byte ∧
    (∀ v, Datum.byte 1#8 ≠ .word v) ∧ ∀ b, Datum.word 1#32 ≠ .byte b :=
  ⟨by decide, by decide, bufSize_le, by decide, by decide, by decide, fun _ => nofun, fun _ => nofun⟩

theorem test_witness_ResetEventClearsRegisters :
    ({ State.reset with scount := 7#32, requests := [.reset] } : State).requests = .reset :: [] ∧
    ({ State.reset with scount := 7#32, requests := [.reset] } : State).background = .powerUp 0 := ⟨rfl, rfl⟩

/-- A state with listed bytes, a result and a command to run, and the state after it. -/
theorem test_witness_StepKeepsTheInvariant :
    let s : State := { small 8 1 0 [1#8, 2#8] [3#8] with rlen := 3#32, tagw := 4#32, requests := [cmdWrite 0x00010301#32] }
    s.Inv ∧ step s = .next (after (step s)) :=
  ⟨⟨by decide, by decide, le_trans (by decide) bufSize_ge, by decide, by decide, by decide, by decide, by decide⟩, rfl⟩

end Sys2Proof.Machine.Tests
end

/-! The helper functions of 00_scope.md section 6: R13, R15, R16, R17 and R18. -/

namespace Sys2Proof.Machine

/-! ## ceil_div -/

/-- Settles O8: `ceilDiv` is the lower adjoint of multiplication by `b`. -/
theorem ceilDivIsLeast : Obligations.CeilDivIsLeast := by
  unfold Obligations.CeilDivIsLeast
  intro a b hb
  have hzero : ceilDiv 0 b ≤ 0 := (ceilDiv_le_iff 0 b 0 hb).2 (Nat.zero_le _)
  exact ⟨le_ceilDiv_mul a b hb, fun q => (ceilDiv_le_iff a b q hb).2, rfl, Nat.le_zero.1 hzero⟩

/-! ## Little-endian numbers -/

/-- Byte `k` of `le_bytes(v, w)` (R15). -/
theorem getD_leBytes_toNat (v w k : Nat) (hk : k < w) :
    ((leBytes v w).getD k 0#8).toNat = v / 2 ^ (8 * k) % 256 := by
  simp [leBytes, List.getElem?_range hk]

/-- `le_value` with each byte's weight as a power of two (R15). -/
theorem leValue_eq_sum_two_pow (s : List Byte) :
    leValue s = ((List.range s.length).map fun k => (s.getD k 0#8).toNat * 2 ^ (8 * k)).sum := by
  have hweight (k : Nat) : 256 ^ k = 2 ^ (8 * k) := by rw [pow_mul]; norm_num
  simp only [leValue_eq_sum, hweight, Nat.mul_comm]

/-- A number that fits `w` bytes is read back whole (R15). -/
theorem leValue_leBytes (v w : Nat) (hv : v < 2 ^ (8 * w)) : leValue (leBytes v w) = v := by
  rw [leValue_leBytes_mod, Nat.mod_eq_of_lt hv]

/-- Settles O10, from the bytes of `leBytes` and the sum that `leValue` is. -/
theorem littleEndianBytes : Obligations.LittleEndianBytes := by
  unfold Obligations.LittleEndianBytes
  exact ⟨fun v w hv => ⟨length_leBytes v w, getD_leBytes_toNat v w, leValue_leBytes v w hv⟩,
    leValue_eq_sum_two_pow, rfl, rfl⟩

/-! ## Bits and packing -/

/-- Inside a bit sequence, the zero extension of R18 changes no bit. -/
theorem getElem?_eq_some_bitAt (q : List Bool) (j : Nat) (hj : j < q.length) : q[j]? = some (bitAt q j) := by
  simp [bitAt, hj]

/-- `bits_of`, bit by bit (R16). -/
theorem getElem?_bitsOf (s : List Byte) (j : Nat) (hj : j < 8 * s.length) :
    (bitsOf s)[j]? = some ((s.getD (j / 8) 0#8).getLsbD (7 - j % 8)) := by
  rw [getElem?_eq_some_bitAt _ _ (by rwa [length_bitsOf]), bitAt_bitsOf]

theorem bitAt_eq_ite (q : List Bool) (j : Nat) : bitAt q j = if j < q.length then q.getD j false else false := by
  split
  · rfl
  · next h => exact bitAt_eq_false q j (Nat.le_of_not_lt h)

/-- `pack_bits`, bit by bit, most significant bit of a byte first (R17). -/
theorem packBits_getLsbD_msb_first (q : List Bool) (k r : Nat) (hr : r < 8) :
    ((packBits q).getD k 0#8).getLsbD (7 - r) = bitAt q (8 * k + r) := by
  have h1 : 7 - r < 8 := by omega
  have h2 : 7 - (7 - r) = r := by omega
  simp only [packBits_getLsbD, h1, h2, decide_true, Bool.true_and]

/-- `pack_bits` is the inverse of `bits_of` on whole bytes (R17). -/
theorem packBits_bitsOf (s : List Byte) : packBits (bitsOf s) = s := by
  apply bytes_ext
  · rw [length_packBits, length_bitsOf, ceilDiv_mul_self s.length 8 (by omega)]
  · intro k r _ hr
    have hbyte : (8 * k + (7 - r)) / 8 = k := by omega
    have hbit : 7 - (8 * k + (7 - r)) % 8 = r := by omega
    rw [packBits_getLsbD, bitAt_bitsOf, hbyte, hbit, decide_eq_true hr, Bool.true_and]

/-- Settles O11, bit by bit; the round trip compares both sequences bit by bit too. -/
theorem bitsAndPacking : Obligations.BitsAndPacking := by
  unfold Obligations.BitsAndPacking
  refine ⟨fun s => ⟨length_bitsOf s, getElem?_bitsOf s⟩, fun q => ⟨length_packBits q, ?_⟩, packBits_bitsOf⟩
  intro k r _ hr
  rw [packBits_getLsbD_msb_first q k r hr, bitAt_eq_ite]

/-! ## Chunks -/

/-- A chunk as the sum that defines it (R18). -/
theorem chunk_eq_sum (q : List Bool) (n i : Nat) :
    chunk q n i = ((List.range n).map fun k => (bitAt q (i * n + k)).toNat * 2 ^ (n - 1 - k)).sum := by
  rw [chunk, msbValue_eq_sum, List.length_map, List.length_range]
  congr 1
  apply List.map_congr_left
  intro k hk
  have hbit := bitAt_map_range (fun k => bitAt q (i * n + k)) n k
  rw [decide_eq_true (List.mem_range.1 hk), Bool.true_and] at hbit
  rw [← hbit, bitAt]

/-- Settles O12, from the number a bit sequence spells. -/
theorem chunkIsMostSignificantFirst : Obligations.ChunkIsMostSignificantFirst := by
  unfold Obligations.ChunkIsMostSignificantFirst
  intro q n i _ _
  exact ⟨chunk_eq_sum q n i, chunk_lt q n i⟩

end Sys2Proof.Machine

/-! The result of a command is a function of its inputs: R30. -/

namespace Sys2Proof.Machine

/-! ## What a command reads -/

/-- Two states that agree on what R30 lets a result depend on: the operand registers, CBUF and PBUF. -/
structure SameInputs (s1 s2 : State) : Prop where
  scount : s1.scount = s2.scount
  plen : s1.plen = s2.plen
  nbits : s1.nbits = s2.nbits
  cbuf : ∀ a, a < Config.bufSize → s1.byteAt .cbuf a = s2.byteAt .cbuf a
  pbuf : ∀ a, a < Config.bufSize → s1.byteAt .pbuf a = s2.byteAt .pbuf a

/-- Reading a stretch where two states hold the same bytes. -/
theorem State.bytesAt_congr {s1 s2 : State} {sp : Space} {a n : Nat}
    (h : ∀ k, k < n → s1.byteAt sp (a + k) = s2.byteAt sp (a + k)) : s1.bytesAt sp a n = s2.bytesAt sp a n :=
  List.map_congr_left fun k hk => h k (List.mem_range.1 hk)

namespace SameInputs

variable {s1 s2 : State} (e : SameInputs s1 s2)
include e

theorem sampleCount_eq : s2.sampleCount = s1.sampleCount := congrArg BitVec.toNat e.scount.symm

theorem payloadLength_eq : s2.payloadLength = s1.payloadLength := congrArg BitVec.toNat e.plen.symm

theorem bitCount_eq : s2.bitCount = s1.bitCount := congrArg BitVec.toNat e.nbits.symm

theorem capacityBits_eq (n : Nat) : s2.capacityBits n = s1.capacityBits n := congrArg (· * n) e.sampleCount_eq

theorem failedCheck_eq (p : Bool) (n bd : Nat) : failedCheck p n bd s2 = failedCheck p n bd s1 := by
  simp only [failedCheck, e.sampleCount_eq, e.payloadLength_eq]

theorem checksPass {p : Bool} {n bd : Nat} (h : ChecksPass p n bd s1) : ChecksPass p n bd s2 := by
  rw [← failedCheck_none_iff] at h ⊢
  rw [e.failedCheck_eq, h]

theorem carrier_eq {p : Bool} {n bd : Nat} (h : ChecksPass p n bd s1) : s2.carrier bd = s1.carrier bd := by
  rw [State.carrier, e.sampleCount_eq]
  refine State.bytesAt_congr fun k hk => (e.cbuf _ ?_).symm
  have := h.carrier
  omega

theorem payload_eq {n bd : Nat} (h : ChecksPass true n bd s1) : s2.payload = s1.payload := by
  rw [State.payload, e.payloadLength_eq]
  refine State.bytesAt_congr fun k hk => (e.pbuf _ ?_).symm
  have := h.payload rfl
  omega

theorem claim_eq {p : Bool} {n bd : Nat} (h : ChecksPass p n bd s1) : s2.claim n bd = s1.claim n bd := by
  rw [State.claim, e.carrier_eq h, e.capacityBits_eq, State.claim]

theorem recovered_eq {p : Bool} {n bd : Nat} (h : ChecksPass p n bd s1) : s2.recovered n bd = s1.recovered n bd := by
  rw [State.recovered, e.carrier_eq h, e.capacityBits_eq, e.claim_eq h, State.recovered]

end SameInputs

/-! ## Commands that end alike -/

/-- What R30 asks of TAGW and CLAIMED when `u1` and `u2` are reached from `s1` and `s2`: one value in both, or no write. -/
structure TagsAlike (s1 s2 u1 u2 : State) : Prop where
  tagw : u1.tagw = u2.tagw ∨ (u1.tagw = s1.tagw ∧ u2.tagw = s2.tagw)
  claimed : u1.claimed = u2.claimed ∨ (u1.claimed = s1.claimed ∧ u2.claimed = s2.claimed)

theorem TagsAlike.unwritten (s1 s2 : State) : TagsAlike s1 s2 s1 s2 := ⟨.inr ⟨rfl, rfl⟩, .inr ⟨rfl, rfl⟩⟩

theorem TagsAlike.setTagw (s1 s2 : State) (v : Nat) : TagsAlike s1 s2 (s1.setTagw v) (s2.setTagw v) :=
  ⟨.inl rfl, .inr ⟨rfl, rfl⟩⟩

theorem TagsAlike.setTags (s1 s2 : State) (v c : Nat) :
    TagsAlike s1 s2 ((s1.setTagw v).setClaimed c) ((s2.setTagw v).setClaimed c) := ⟨.inl rfl, .inl rfl⟩

/-- `t1` and `t2` hold the same result of a command run from `s1` and from `s2`. -/
structure EndsAlike (s1 s2 t1 t2 : State) : Prop extends TagsAlike s1 s2 t1 t2 where
  status : t1.status = t2.status
  rlen : t1.rlen = t2.rlen
  result : ∀ a, a < t1.rlen.toNat → t1.byteAt .obuf a = t2.byteAt .obuf a

/-- Both answers are next states, and these end alike. -/
def AnswersAlike (s1 s2 : State) (o1 o2 : Answer) : Prop :=
  ∃ t1 t2, o1 = .next t1 ∧ o2 = .next t2 ∧ EndsAlike s1 s2 t1 t2

/-- Two aborts with one code end alike: there is no result to compare (R115). -/
theorem answersAlike_aborted {s1 s2 u1 u2 : State} {o1 o2 : Answer} {c : Code} (k : TagsAlike s1 s2 u1 u2)
    (h1 : o1 = .next (aborted c u1)) (h2 : o2 = .next (aborted c u2)) : AnswersAlike s1 s2 o1 o2 :=
  ⟨_, _, h1, h2, { k with status := rfl, rlen := rfl, result := fun a ha => absurd ha (Nat.not_lt_zero a) }⟩

/-- One result delivered in two states ends alike, whatever their OBUF held (R41). -/
theorem answersAlike_delivered {s1 s2 u1 u2 : State} {o1 o2 : Answer} {len : Nat} {r : List Byte}
    (k : TagsAlike s1 s2 u1 u2) (hr : r.length = len) (h1 : o1 = .next (delivered len r u1))
    (h2 : o2 = .next (delivered len r u2)) : AnswersAlike s1 s2 o1 o2 := by
  refine ⟨_, _, h1, h2, { tagw := ?_, claimed := ?_, status := rfl, rlen := rfl, result := fun a ha => ?_ }⟩
  · simpa using k.tagw
  · simpa using k.claimed
  · have hlen : a < len := lt_of_lt_of_le ha (Nat.mod_le len (2 ^ 32))
    rw [delivered_byteAt _ _ _ hr _ hlen, delivered_byteAt _ _ _ hr _ hlen]

/-! ## Each command, once its checks pass -/

section
variable {s1 s2 : State} {n bd : Nat} (e : SameInputs s1 s2)
include e

theorem execIlv_alike (h : ChecksPass true n bd s1) : AnswersAlike s1 s2 (execIlv n bd s1) (execIlv n bd s2) := by
  have h2 := e.checksPass h
  rcases Nat.lt_or_ge (s1.sampleCount * n) (8 * s1.payloadLength) with hc | hc
  · refine answersAlike_aborted (.unwritten s1 s2) (execIlv_capacity n bd s1 h hc) (execIlv_capacity n bd s2 h2 ?_)
    rwa [e.sampleCount_eq, e.payloadLength_eq]
  · have r2 := execIlv_done n bd s2 h2 (by rwa [e.sampleCount_eq, e.payloadLength_eq])
    rw [e.sampleCount_eq, e.carrier_eq h, e.payload_eq h] at r2
    exact answersAlike_delivered (.unwritten s1 s2) (by simp) (execIlv_done n bd s1 h hc) r2

theorem execIlvt_alike (h : ChecksPass true n bd s1) : AnswersAlike s1 s2 (execIlvt n bd s1) (execIlvt n bd s2) := by
  have h2 := e.checksPass h
  rcases Nat.lt_or_ge (s1.sampleCount * n) (8 * s1.payloadLength) with hc | hc
  · refine answersAlike_aborted (.unwritten s1 s2) (execIlvt_capacity n bd s1 h hc) (execIlvt_capacity n bd s2 h2 ?_)
    rwa [e.sampleCount_eq, e.payloadLength_eq]
  · have r2 := execIlvt_done n bd s2 h2 (by rwa [e.sampleCount_eq, e.payloadLength_eq])
    rw [e.payloadLength_eq, e.carrier_eq h, e.payload_eq h] at r2
    have hlen := length_interleave_trunc (s1.carrier bd) s1.payload n bd s1.sampleCount h.nlsbLow (by simp)
      (by simpa using hc)
    exact answersAlike_delivered (.unwritten s1 s2) (by simpa using hlen) (execIlvt_done n bd s1 h hc) r2

theorem execDlv_alike (h : ChecksPass false n bd s1) : AnswersAlike s1 s2 (execDlv n bd s1) (execDlv n bd s2) := by
  have h2 := e.checksPass h
  rcases Nat.lt_or_ge (s1.sampleCount * n) s1.bitCount with hc | hc
  · refine answersAlike_aborted (.unwritten s1 s2) (execDlv_short n bd s1 h hc) (execDlv_short n bd s2 h2 ?_)
    rwa [e.sampleCount_eq, e.bitCount_eq]
  · have r2 := execDlv_done n bd s2 h2 (by rwa [e.sampleCount_eq, e.bitCount_eq])
    rw [e.bitCount_eq, e.carrier_eq h] at r2
    exact answersAlike_delivered (.unwritten s1 s2) (length_deinterleave _ _ _ _ h.nlsbLow) (execDlv_done n bd s1 h hc) r2

theorem execHide_alike (h : ChecksPass true n bd s1) : AnswersAlike s1 s2 (execHide n bd s1) (execHide n bd s2) := by
  have h2 := e.checksPass h
  rcases Nat.lt_or_ge (s1.capacityBits n) (8 * (tagWidth (s1.capacityBits n) + s1.payloadLength)) with hc | hc
  · have r2 := execHide_capacity n bd s2 h2 (by rwa [e.capacityBits_eq, e.payloadLength_eq])
    rw [e.capacityBits_eq] at r2
    exact answersAlike_aborted (.setTagw s1 s2 _) (execHide_capacity n bd s1 h hc) r2
  · have r2 := execHide_done n bd s2 h2 (by rwa [e.capacityBits_eq, e.payloadLength_eq])
    rw [e.sampleCount_eq, e.capacityBits_eq, e.carrier_eq h, e.payload_eq h] at r2
    exact answersAlike_delivered (.setTagw s1 s2 _) (by simp) (execHide_done n bd s1 h hc) r2

theorem execRcv_alike (h : ChecksPass false n bd s1) : AnswersAlike s1 s2 (execRcv n bd s1) (execRcv n bd s2) := by
  have h2 := e.checksPass h
  rcases Nat.lt_or_ge (s1.capacityBits n) (8 * tagWidth (s1.capacityBits n)) with hw | hw
  · have r2 := execRcv_noTag n bd s2 h2 (by rwa [e.capacityBits_eq])
    rw [e.capacityBits_eq] at r2
    exact answersAlike_aborted (.setTags s1 s2 _ _) (execRcv_noTag n bd s1 h hw) r2
  rcases Nat.lt_or_ge (s1.capacityBits n) (8 * (tagWidth (s1.capacityBits n) + s1.claim n bd)) with hc | hc
  · have r2 := execRcv_corrupted n bd s2 h2 (by rwa [e.capacityBits_eq]) (by rwa [e.capacityBits_eq, e.claim_eq h])
    rw [e.capacityBits_eq, e.claim_eq h] at r2
    exact answersAlike_aborted (.setTags s1 s2 _ _) (execRcv_corrupted n bd s1 h hw hc) r2
  · have r2 := execRcv_done n bd s2 h2 (by rwa [e.capacityBits_eq, e.claim_eq h])
    rw [e.capacityBits_eq, e.claim_eq h, e.recovered_eq h] at r2
    exact answersAlike_delivered (.setTags s1 s2 _ _) (length_recovered n bd s1 h.nlsbLow) (execRcv_done n bd s1 h hc) r2

/-! ## Every command word -/

/-- One command run from two states with the same inputs ends alike: a failed check aborts both, else its own body decides. -/
theorem exec_alike (i : Instr) : AnswersAlike s1 s2 (exec i s1) (exec i s2) := by
  rcases failedCheck_cases (usesPayload i) i.nlsb i.bdepth s1 with ⟨c, hf⟩ | h
  · exact answersAlike_aborted (.unwritten s1 s2) (exec_failedCheck i s1 c hf)
      (exec_failedCheck i s2 c ((e.failedCheck_eq _ _ _).trans hf))
  cases i with
  | ilv n bd => exact execIlv_alike e h
  | ilvt n bd => exact execIlvt_alike e h
  | dlv n bd => exact execDlv_alike e h
  | hide n bd => exact execHide_alike e h
  | rcv n bd => exact execRcv_alike e h

theorem execWord_alike (w : Word) : AnswersAlike s1 s2 (execWord w s1) (execWord w s2) := by
  unfold execWord
  cases decode w with
  | ok i => exact exec_alike e i
  | error _ => exact answersAlike_aborted (.unwritten s1 s2) (abort_eq _ s1) (abort_eq _ s2)

end

/-- Settles O39: each command reads its checks, its tag and its result from the inputs alone. -/
theorem resultDependsOnInputsOnly : Obligations.ResultDependsOnInputsOnly := by
  unfold Obligations.ResultDependsOnInputsOnly
  intro w s1 s2 hscount hplen hnbits hbytes
  have e : SameInputs s1 s2 :=
    ⟨hscount, hplen, hnbits, fun a ha => (hbytes a ha).1, fun a ha => (hbytes a ha).2⟩
  obtain ⟨t1, t2, h1, h2, k⟩ := execWord_alike e w
  exact ⟨t1, t2, h1, h2, k.status, k.rlen, k.result, k.tagw, k.claimed⟩

end Sys2Proof.Machine

/-! The host port: what one transaction on a register or on a buffer answers and changes (R43 to R46). -/

namespace Sys2Proof.Machine

/-! ## The register space -/

/-- Past the last register, or between two, no register is mapped (R26, R46). -/
theorem regAt_eq_none {off : Nat} (h : 0x20 ≤ off ∨ off % 4 ≠ 0) : regAt off = none := by
  unfold regAt
  split
  case h_9 => rfl
  all_goals omega

theorem serveRead_reg {off : Nat} {r : Reg} (s : State) (h : regAt off = some r) :
    serveRead 0 .word off s = s.setReply (.word (s.regValue r)) := by
  simp [serveRead, hostRead32, h]

theorem serveRead_unmapped {off : Nat} (size : Size) (s : State) (h : regAt off = none) :
    serveRead 0 size off s = s.setReply .err := by
  cases size with
  | word => simp [serveRead, hostRead32, h]
  | byte => rfl
  | other _ => rfl

theorem serveWrite_unmapped {off : Nat} (d : Datum) (s : State) (h : regAt off = none) :
    serveWrite 0 d off s = .next (s.setReply .err) := by
  cases d with
  | word v => simp [serveWrite, hostWrite32, h]
  | byte _ => rfl
  | other _ => rfl

/-- STATUS, RLEN, TAGW and CLAIMED are read-only, whatever the size of the write (R22, R46). -/
theorem serveWrite_readOnly {off : Nat} (d : Datum) (s : State) (h : off ∈ [0x04, 0x14, 0x18, 0x1C]) :
    serveWrite 0 d off s = .next (s.setReply .err) := by
  simp only [List.mem_cons, List.not_mem_nil, or_false] at h
  cases d with
  | word v => rcases h with rfl | rfl | rfl | rfl <;> rfl
  | byte _ => rfl
  | other _ => rfl

/-- A write to CMD answers OK once the command has run to its end (R44). -/
theorem serveWrite_cmd {v : Word} {s t : State} (h : execWord v s = .next t) :
    serveWrite 0 (.word v) 0x00 s = .next (t.setReply .ok) := by
  simp only [serveWrite, hostWrite32, regAt, h, andThen]

theorem serveRead_reg_size {size : Size} (off : Nat) (s : State) (h : size ≠ .word) :
    serveRead 0 size off s = s.setReply .err := by
  cases size with
  | word => exact absurd rfl h
  | byte => rfl
  | other _ => rfl

theorem serveWrite_reg_size {d : Datum} (off : Nat) (s : State) (h : ∀ v, d ≠ .word v) :
    serveWrite 0 d off s = .next (s.setReply .err) := by
  cases d with
  | word v => exact absurd rfl (h v)
  | byte _ => rfl
  | other _ => rfl

/-! ## The buffer spaces -/

/-- The selects 1, 2 and 3 are the three buffers (R28). -/
theorem exists_select_eq {sel : Nat} (h : sel ∈ [1, 2, 3]) : ∃ sp : Space, sp.select = sel := by
  simp only [List.mem_cons, List.not_mem_nil, or_false] at h
  rcases h with rfl | rfl | rfl
  · exact ⟨.cbuf, rfl⟩
  · exact ⟨.pbuf, rfl⟩
  · exact ⟨.obuf, rfl⟩

theorem serveRead_byte (sp : Space) (a : Nat) (s : State) : serveRead sp.select .byte a s = hostRead8 sp a s := by
  cases sp <;> rfl

theorem serveWrite_byte (sp : Space) (a : Nat) (b : Byte) (s : State) :
    serveWrite sp.select (.byte b) a s = .next (hostWrite8 sp a b s) := by
  cases sp <;> rfl

theorem hostRead8_inside {a : Nat} (sp : Space) (s : State) (h : a < Config.bufSize) :
    hostRead8 sp a s = s.setReply (.byte (s.byteAt sp a)) :=
  if_pos ((fitsBuffer_iff _).2 h)

theorem hostWrite8_inside {a : Nat} (sp : Space) (b : Byte) (s : State) (h : a < Config.bufSize) :
    hostWrite8 sp a b s = (s.putBytes sp a [b]).setReply .ok :=
  if_pos ((fitsBuffer_iff _).2 h)

theorem hostRead8_outside {a : Nat} (sp : Space) (s : State) (h : Config.bufSize ≤ a) :
    hostRead8 sp a s = s.setReply .err := by
  rw [hostRead8, (fitsBuffer_false_iff _).2 (Nat.lt_succ_of_le h)]
  rfl

theorem hostWrite8_outside {a : Nat} (sp : Space) (b : Byte) (s : State) (h : Config.bufSize ≤ a) :
    hostWrite8 sp a b s = s.setReply .err := by
  rw [hostWrite8, (fitsBuffer_false_iff _).2 (Nat.lt_succ_of_le h)]
  rfl

theorem serveRead_buffer_size {size : Size} (sp : Space) (a : Nat) (s : State) (h : size ≠ .byte) :
    serveRead sp.select size a s = s.setReply .err := by
  cases size with
  | byte => exact absurd rfl h
  | word => cases sp <;> rfl
  | other _ => cases sp <;> rfl

theorem serveWrite_buffer_size {d : Datum} (sp : Space) (a : Nat) (s : State) (h : ∀ b, d ≠ .byte b) :
    serveWrite sp.select d a s = .next (s.setReply .err) := by
  cases d with
  | byte b => exact absurd rfl (h b)
  | word _ => cases sp <;> rfl
  | other _ => cases sp <;> rfl

/-- An offset past the buffer gets ERR: a byte access fails its bound, any other its size (R46). -/
theorem serveRead_outside {a : Nat} (sp : Space) (size : Size) (s : State) (h : Config.bufSize ≤ a) :
    serveRead sp.select size a s = s.setReply .err := by
  by_cases hsize : size = .byte
  · rw [hsize, serveRead_byte, hostRead8_outside sp s h]
  · exact serveRead_buffer_size sp a s hsize

theorem serveWrite_outside {a : Nat} (sp : Space) (d : Datum) (s : State) (h : Config.bufSize ≤ a) :
    serveWrite sp.select d a s = .next (s.setReply .err) := by
  by_cases hsize : ∃ b, d = .byte b
  · obtain ⟨b, rfl⟩ := hsize
    rw [serveWrite_byte, hostWrite8_outside sp b s h]
  · exact serveWrite_buffer_size sp a s (not_exists.1 hsize)

/-! ## No space -/

theorem serveRead_noSpace {sel : Nat} (size : Size) (off : Nat) (s : State) (h : 3 < sel) :
    serveRead sel size off s = s.setReply .err := by
  obtain ⟨k, rfl⟩ := Nat.exists_eq_add_of_le' h
  cases size <;> rfl

theorem serveWrite_noSpace {sel : Nat} (d : Datum) (off : Nat) (s : State) (h : 3 < sel) :
    serveWrite sel d off s = .next (s.setReply .err) := by
  obtain ⟨k, rfl⟩ := Nat.exists_eq_add_of_le' h
  cases d <;> rfl

/-! ## What a byte write changes -/

theorem State.putBytes_singleton_byteAt (s : State) (sp sp' : Space) (a x : Nat) (b : Byte) :
    (s.putBytes sp a [b]).byteAt sp' x = if sp' = sp ∧ x = a then b else s.byteAt sp' x := by
  have hrange : a ≤ x ∧ x < a + [b].length ↔ x = a := by rw [List.length_singleton]; omega
  simp only [State.putBytes_byteAt, hrange]
  split
  · next h => rw [h.2, Nat.sub_self, List.getD_cons_zero]
  · rfl

/-- Storing bytes changes the buffers' contents only. -/
theorem State.putBytes_eq (s : State) (sp : Space) (a : Nat) (v : List Byte) :
    s.putBytes sp a v =
      { s with cbuf := (s.putBytes sp a v).cbuf, pbuf := (s.putBytes sp a v).pbuf, obuf := (s.putBytes sp a v).obuf } := by
  cases sp <;> rfl

/-! ## The statements -/

/-- Settles O51: each offset names its register, and a read of a register changes the reply only. -/
theorem hostRead32Answers : Obligations.HostRead32Answers := by
  unfold Obligations.HostRead32Answers
  intro s off rest hreq v hv
  have hreg : ∃ r, regAt off = some r ∧ (s.setRequests rest).regValue r = v := by
    simp only [List.mem_cons, List.not_mem_nil, or_false, Prod.mk.injEq] at hv
    rcases hv with ⟨rfl, rfl⟩ | ⟨rfl, rfl⟩ | ⟨rfl, rfl⟩ | ⟨rfl, rfl⟩ | ⟨rfl, rfl⟩ | ⟨rfl, rfl⟩ | ⟨rfl, rfl⟩ | ⟨rfl, rfl⟩ <;>
      exact ⟨_, rfl, rfl⟩
  obtain ⟨r, hr, hval⟩ := hreg
  rw [step_cons s _ rest hreq, serve, serveRead_reg _ hr, hval]
  rfl

/-- Settles O52: the write to CMD completes because `Exec` does; every other offset is one setter or ERR. -/
theorem hostWrite32Answers : Obligations.HostWrite32Answers := by
  unfold Obligations.HostWrite32Answers
  intro s off v rest hreq
  rw [step_cons s _ rest hreq, serve]
  refine ⟨?_, ?_, ?_, ?_, fun hoff => serveWrite_readOnly _ _ hoff⟩
  · rintro rfl; rfl
  · rintro rfl; rfl
  · rintro rfl; rfl
  · rintro rfl
    obtain ⟨t, ht⟩ := execWord_next v (s.setRequests rest)
    exact ⟨t, ht, serveWrite_cmd ht⟩

/-- Settles O53, from read after write of one byte. -/
theorem hostByteAccess : Obligations.HostByteAccess := by
  unfold Obligations.HostByteAccess
  intro s sp a b rest ha
  refine ⟨fun hreq => ?_, fun hreq => ⟨((s.setRequests rest).putBytes sp a [b]).setReply .ok, ?_, ?_, ?_, ?_⟩⟩
  · rw [step_cons s _ rest hreq, serve, serveRead_byte, hostRead8_inside sp _ ha, State.setRequests_byteAt]
    rfl
  · rw [step_cons s _ rest hreq, serve, serveWrite_byte, hostWrite8_inside sp b _ ha]
  · rw [State.setReply_byteAt, State.putBytes_singleton_byteAt, if_pos ⟨rfl, rfl⟩]
  · intro sp' x hother
    have hne : ¬(sp' = sp ∧ x = a) := not_and_or.2 hother
    rw [State.setReply_byteAt, State.putBytes_singleton_byteAt, if_neg hne, State.setRequests_byteAt]
  · exact congrArg (State.setReply · .ok) (State.putBytes_eq (s.setRequests rest) sp a [b])

/-- Settles O54: each way to be illegal has its own law, for reads and for writes. -/
theorem illegalAccessAnswersErr : Obligations.IllegalAccessAnswersErr := by
  unfold Obligations.IllegalAccessAnswersErr
  intro s sel off rest
  constructor
  · intro size hreq hillegal
    have herr : serveRead sel size off (s.setRequests rest) = (s.setRequests rest).setReply .err := by
      rcases hillegal with ⟨rfl, hoff⟩ | ⟨hsel, hoff⟩ | hsel | ⟨rfl, hsize⟩ | ⟨hsel, hsize⟩
      · exact serveRead_unmapped size _ (regAt_eq_none hoff)
      · obtain ⟨sp, rfl⟩ := exists_select_eq hsel
        exact serveRead_outside sp size _ hoff
      · exact serveRead_noSpace size off _ hsel
      · exact serveRead_reg_size off _ hsize
      · obtain ⟨sp, rfl⟩ := exists_select_eq hsel
        exact serveRead_buffer_size sp off _ hsize
    rw [step_cons s _ rest hreq, serve, herr]
    rfl
  · intro d hreq hillegal
    have herr : serveWrite sel d off (s.setRequests rest) = .next ((s.setRequests rest).setReply .err) := by
      rcases hillegal with ⟨rfl, hoff | hoff | hoff⟩ | ⟨hsel, hoff⟩ | hsel | ⟨rfl, hsize⟩ | ⟨hsel, hsize⟩
      · exact serveWrite_unmapped d _ (regAt_eq_none (.inl hoff))
      · exact serveWrite_unmapped d _ (regAt_eq_none (.inr hoff))
      · exact serveWrite_readOnly d _ hoff
      · obtain ⟨sp, rfl⟩ := exists_select_eq hsel
        exact serveWrite_outside sp d _ hoff
      · exact serveWrite_noSpace d off _ hsel
      · exact serveWrite_reg_size off _ hsize
      · obtain ⟨sp, rfl⟩ := exists_select_eq hsel
        exact serveWrite_buffer_size sp off _ hsize
    rw [step_cons s _ rest hreq, serve, herr]
    rfl

end Sys2Proof.Machine

/-! The command word (30_encoding.md): the fields of format C, the decoder's two outcomes, the assembled words, and `Exec` of an
illegal word. -/

namespace Sys2Proof

/-! ## The fields of a word -/

theorem fieldT_toNat (w : Word) : (fieldT w).toNat = w.toNat / 2 ^ 4 % 2 := Nat.toNat_testBit w.toNat 4

/-- The formula of R61: the six fields tile the word. -/
theorem toNat_eq_sum_fields (w : Word) :
    w.toNat = fieldRsv1 w * 2 ^ 24 + fieldBdepth w * 2 ^ 16 + fieldNlsb w * 2 ^ 8 + fieldRsv0 w * 2 ^ 5
      + (fieldT w).toNat * 2 ^ 4 + fieldOp w := by
  have hw := w.isLt
  rw [fieldRsv1_eq, fieldBdepth_eq, fieldNlsb_eq, fieldRsv0_eq, fieldT_toNat, fieldOp_eq]
  omega

/-! ## The table of operations -/

theorem selectOperation_reserved {op : Nat} (t : Bool) (n bd : Nat) (h : op ∉ [1, 2, 3, 4]) :
    selectOperation op t n bd = .error .reservedOperation := by
  simp only [List.mem_cons, List.not_mem_nil, or_false, not_or] at h
  simp [selectOperation, h]

/-- The rows of R62's table. -/
theorem selectOperation_eq_ok_iff (op : Nat) (t : Bool) (n bd : Nat) (i : Instr) :
    selectOperation op t n bd = .ok i ↔
      op = 1 ∧ t = false ∧ i = .ilv n bd ∨ op = 1 ∧ t = true ∧ i = .ilvt n bd ∨ op = 2 ∧ t = false ∧ i = .dlv n bd ∨
      op = 3 ∧ t = false ∧ i = .hide n bd ∨ op = 4 ∧ t = false ∧ i = .rcv n bd := by
  by_cases hop : op ∈ [1, 2, 3, 4]
  · simp only [List.mem_cons, List.not_mem_nil, or_false] at hop
    rcases hop with rfl | rfl | rfl | rfl <;> cases t <;> simp [selectOperation, eq_comm]
  · rw [selectOperation_reserved t n bd hop]
    simp only [List.mem_cons, List.not_mem_nil, or_false, not_or] at hop
    simp [hop]

/-- The pairs OP, T that R62's table leaves out are the reserved ones of R67. -/
theorem selectOperation_eq_error_iff (op : Nat) (t : Bool) (n bd : Nat) :
    (∃ e, selectOperation op t n bd = .error e) ↔ op ∉ [1, 2, 3, 4] ∨ t = true ∧ op ≠ 1 := by
  by_cases hop : op ∈ [1, 2, 3, 4]
  · simp only [List.mem_cons, List.not_mem_nil, or_false] at hop
    rcases hop with rfl | rfl | rfl | rfl <;> cases t <;> simp [selectOperation]
  · exact iff_of_true ⟨_, selectOperation_reserved t n bd hop⟩ (.inl hop)

/-! ## The decoder -/

theorem decode_reservedField {w : Word} (h : fieldRsv1 w ≠ 0 ∨ fieldRsv0 w ≠ 0) : decode w = .error .reservedField := if_pos h

theorem decode_eq_selectOperation {w : Word} (h : ¬(fieldRsv1 w ≠ 0 ∨ fieldRsv0 w ≠ 0)) :
    decode w = selectOperation (fieldOp w) (fieldT w) (fieldNlsb w) (fieldBdepth w) := if_neg h

/-- A word decodes when its reserved fields are 0 and its OP and T have a row in the table (R70). -/
theorem decode_eq_ok_iff (w : Word) (i : Instr) :
    decode w = .ok i ↔ fieldRsv1 w = 0 ∧ fieldRsv0 w = 0 ∧
      selectOperation (fieldOp w) (fieldT w) (fieldNlsb w) (fieldBdepth w) = .ok i := by
  by_cases h : fieldRsv1 w ≠ 0 ∨ fieldRsv0 w ≠ 0
  · rw [decode_reservedField h]
    exact iff_of_false nofun fun ⟨h1, h0, _⟩ => h.elim (· h1) (· h0)
  · rw [decode_eq_selectOperation h]
    simp only [not_or, not_not] at h
    simp [h]

/-- A word is refused for a reserved field, or for want of a row in the table (R67, R70). -/
theorem decode_eq_error_iff (w : Word) :
    (∃ e, decode w = .error e) ↔ fieldRsv1 w ≠ 0 ∨ fieldRsv0 w ≠ 0 ∨
      ∃ e, selectOperation (fieldOp w) (fieldT w) (fieldNlsb w) (fieldBdepth w) = .error e := by
  rw [← or_assoc]
  by_cases h : fieldRsv1 w ≠ 0 ∨ fieldRsv0 w ≠ 0
  · exact iff_of_true ⟨_, decode_reservedField h⟩ (.inl h)
  · rw [decode_eq_selectOperation h, or_iff_right h]

/-! ## The assembled words -/

theorem toNat_assemble {bd n op : Nat} (t : Bool) (hbd : bd < 256) (hn : n < 256) (hop : op < 16) :
    (assemble bd n t op).toNat = bd * 0x10000 + n * 0x100 + (t.toNat * 0x10 + op) := by
  obtain ⟨hrsv1, hbdepth, hnlsb, hrsv0, ht, hfieldOp⟩ := assemble_fields bd n op t hbd hn hop
  rw [toNat_eq_sum_fields, hrsv1, hbdepth, hnlsb, hrsv0, ht, hfieldOp]
  omega

/-! ## The statements -/

/-- Settles O6: the decoder refuses the reserved fields and the pairs outside the table, and `Exec` then aborts with code 5. -/
theorem illegalWordsAbort : Obligations.IllegalWordsAbort := by
  unfold Obligations.IllegalWordsAbort
  intro w s
  constructor
  · rw [decode_eq_error_iff, selectOperation_eq_error_iff]
  · rintro ⟨e, he⟩
    rw [Machine.execWord_error w e s he, Machine.aborted_eq]
    rfl

/-- Settles O3: the fields tile the word, and each row of the table names its `OP`, `T` and operands. -/
theorem fieldsComposeTheWord : Obligations.FieldsComposeTheWord := by
  unfold Obligations.FieldsComposeTheWord
  intro w
  refine ⟨toNat_eq_sum_fields w, BitVec.isLt _, BitVec.isLt _, BitVec.isLt _, BitVec.isLt _, BitVec.isLt _, fun i hi => ?_⟩
  obtain ⟨hrsv1, hrsv0, hrow⟩ := (decode_eq_ok_iff w i).1 hi
  refine ⟨hrsv1, hrsv0, ?_⟩
  rcases (selectOperation_eq_ok_iff ..).1 hrow with
    ⟨hop, ht, rfl⟩ | ⟨hop, ht, rfl⟩ | ⟨hop, ht, rfl⟩ | ⟨hop, ht, rfl⟩ | ⟨hop, ht, rfl⟩ <;>
      simp [hop, ht, Instr.nlsb, Instr.bdepth]

/-- Settles O4: the operands stand in bytes 2 and 1, and each line's low byte is its `T` and `OP`. -/
theorem assemblyWords : Obligations.AssemblyWords := by
  unfold Obligations.AssemblyWords
  intro n bd hn hbd
  have word (t : Bool) {op : Nat} (hop : op < 16) := toNat_assemble t hbd hn hop
  exact ⟨word false (by decide), word true (by decide), word false (by decide), word false (by decide), word false (by decide)⟩

end Sys2Proof

/-! The interleaver (40_interleave.md): the function of R75, and the commands ILV (R76) and ILVT (R77). -/

namespace Sys2Proof

/-- A word that the assembly lines of R71 give selects its row of R62's table. -/
theorem decode_ofNat_eq_selectOperation {bd n low : Nat} (op : Nat) (t : Bool) (hbd : bd < 256) (hn : n < 256)
    (hop : op < 16) (hlow : low = t.toNat * 0x10 + op) :
    decode (BitVec.ofNat 32 (bd * 0x10000 + n * 0x100 + low)) = selectOperation op t n bd := by
  have hword : BitVec.ofNat 32 (bd * 0x10000 + n * 0x100 + low) = assemble bd n t op := by
    rw [hlow, ← toNat_assemble t hbd hn hop, BitVec.ofNat_toNat, BitVec.setWidth_eq]
  obtain ⟨hrsv1, hbdepth, hnlsb, hrsv0, ht, hfieldOp⟩ := assemble_fields bd n op t hbd hn hop
  rw [hword, decode_eq_selectOperation (by simp [hrsv1, hrsv0]), hfieldOp, ht, hnlsb, hbdepth]

end Sys2Proof

namespace Sys2Proof.Machine

/-! ## The function -/

/-- The truncated result agrees with the full one as far as it goes (R75). -/
theorem interleave_true_getD (car pay : List Byte) (n bd a : Nat) (ha : a < bitHeight pay.length n * bd) :
    (interleave car pay n true bd).getD a 0#8 = (interleave car pay n false bd).getD a 0#8 := by
  rw [interleave_true_eq, List.getD_eq_getElem?_getD, List.getElem?_take_of_lt ha, ← List.getD_eq_getElem?_getD]

/-- A touched low byte keeps the carrier's high bits and takes its chunk in the low `n` (R75). -/
theorem touchedByte_eq (car pay : List Byte) (n bd i : Nat) :
    touchedByte car pay n bd i =
      (car.getD (i * bd) 0#8 &&& ~~~(BitVec.ofNat 8 (2 ^ n - 1))) ||| BitVec.ofNat 8 (chunk (bitsOf pay) n i) := rfl

/-- Settles O13: byte `a` is touched when it is the low byte of one of the first `bh` samples. -/
theorem interleaveReplacesLowBits : Obligations.InterleaveReplacesLowBits := by
  unfold Obligations.InterleaveReplacesLowBits
  intro car pay n bd S _ _ hbd hlen _
  refine ⟨(length_interleave_full car pay n bd).trans hlen, fun a ha => ?_, interleave_true_eq car pay n bd⟩
  rw [interleave_full_getD car pay n bd hbd a (by rwa [hlen]), bitHeight]
  split
  · next h => rw [touchedByte_eq, Nat.div_mul_cancel (Nat.dvd_of_mod_eq_zero h.1)]
  · rfl

/-! ## The commands -/

/-- A failed common check ends every command with code 3 or 4 and no result (R109, R115). -/
theorem exec_of_not_checksPass {i : Instr} {s : State} (h : ¬ChecksPass (usesPayload i) i.nlsb i.bdepth s) :
    exec i s = .next { s with status := 3#32, rlen := 0#32 } ∨ exec i s = .next { s with status := 4#32, rlen := 0#32 } := by
  obtain ⟨c, hf⟩ := (failedCheck_cases (usesPayload i) i.nlsb i.bdepth s).resolve_right h
  rw [exec_failedCheck i s c hf]
  rcases failedCheck_code _ _ _ _ _ hf with rfl | rfl
  · exact .inl rfl
  · exact .inr rfl

/-- Settles O22: ILV delivers the interleaved carrier whole. -/
theorem ilvInterleaves : Obligations.IlvInterleaves := by
  unfold Obligations.IlvInterleaves
  intro n bd s
  refine ⟨fun hn hbd => decode_ofNat_eq_selectOperation 1 false hbd hn (by decide) rfl, fun h hc => ?_,
    execIlv_capacity n bd s, exec_of_not_checksPass (i := .ilv n bd)⟩
  have hb := (depthSupported_bounds bd h.width).1
  have hlen : (interleave (s.carrier bd) s.payload n false bd).length = s.sampleCount * bd := by simp
  refine ⟨_, execIlv_done n bd s h hc, delivered_spec _ _ s hlen h.carrier, delivered_tagw .., delivered_claimed ..,
    fun a r ha _ => ?_⟩
  rw [delivered_byteAt _ _ s hlen a ha, s.interleave_getLsbD _ _ n bd a r h.nlsbHigh hb ha s.bitAt_payload,
    State.length_payload]

/-- Settles O23: ILVT delivers the touched samples of the interleaved carrier, all of them inside it. -/
theorem ilvtInterleavesAPrefix : Obligations.IlvtInterleavesAPrefix := by
  unfold Obligations.IlvtInterleavesAPrefix
  intro n bd s
  refine ⟨fun hn hbd => decode_ofNat_eq_selectOperation 1 true hbd hn (by decide) rfl, fun h hc => ?_,
    execIlvt_capacity n bd s, exec_of_not_checksPass (i := .ilvt n bd)⟩
  have hb := (depthSupported_bounds bd h.width).1
  have hlen : (interleave (s.carrier bd) s.payload n true bd).length = bitHeight s.payloadLength n * bd := by
    rw [length_interleave_trunc _ _ n bd s.sampleCount h.nlsbLow (by simp) (by simpa using hc), State.length_payload]
  have hle : bitHeight s.payloadLength n * bd ≤ s.sampleCount * bd :=
    Nat.mul_le_mul_right bd (bitHeight_le _ n _ h.nlsbLow hc)
  refine ⟨_, execIlvt_done n bd s h hc, delivered_spec _ _ s hlen (hle.trans h.carrier), delivered_tagw ..,
    delivered_claimed .., fun a r ha _ => ?_⟩
  have ha' : a < bitHeight s.payload.length n * bd := by rwa [State.length_payload]
  rw [delivered_byteAt _ _ s hlen a ha, interleave_true_getD _ _ n bd a ha',
    s.interleave_getLsbD _ _ n bd a r h.nlsbHigh hb (lt_of_lt_of_le ha hle) s.bitAt_payload, State.length_payload]

end Sys2Proof.Machine

/-! The deinterleaver (41_deinterleave.md): the function of R85, its inverse law (R87), and the command DLV (R86). -/

namespace Sys2Proof.Machine

/-! ## The function -/

/-- Bit `8k + r` of the recovered stream stands in bit `7 - r` of byte `k`; from bit `nb` on, 0 (R85). -/
theorem deinterleave_getLsbD_msb_first (car : List Byte) (nb n bd k r : Nat) (hn : 1 ≤ n) (hr : r < 8) :
    ((deinterleave car nb n bd).getD k 0#8).getLsbD (7 - r) =
      (decide (8 * k + r < nb) && (car.getD ((8 * k + r) / n * bd) 0#8).getLsbD (n - 1 - (8 * k + r) % n)) := by
  rw [deinterleave_eq, packBits_getLsbD_msb_first _ k r hr, bitAt_lsbStream _ _ _ _ _ hn]

/-- Where bit `j` of the recovered stream lands (R85). -/
theorem deinterleave_streamBit (car : List Byte) (nb n bd j : Nat) (hn : 1 ≤ n) :
    ((deinterleave car nb n bd).getD (j / 8) 0#8).getLsbD (7 - j % 8) =
      (decide (j < nb) && (car.getD (j / n * bd) 0#8).getLsbD (n - 1 - j % n)) := by
  rw [deinterleave_getLsbD_msb_first car nb n bd (j / 8) (j % 8) hn (Nat.mod_lt j (by decide)), Nat.div_add_mod]

/-- Settles O17: both sentences on the bits are the landing place of bit `j`, below `nb` and from `nb` on. -/
theorem deinterleaveReadsTheStream : Obligations.DeinterleaveReadsTheStream := by
  unfold Obligations.DeinterleaveReadsTheStream
  intro car nb n bd hn _ _ _
  refine ⟨length_deinterleave car nb n bd hn, fun j hj => ?_, fun j hj _ => ?_⟩
  · rw [deinterleave_streamBit car nb n bd j hn, decide_eq_true hj, Bool.true_and]
  · rw [deinterleave_streamBit car nb n bd j hn, decide_eq_false (Nat.not_lt.2 hj), Bool.false_and]

/-! ## The inverse law -/

/-- Two bit sequences of one length with the same bits are equal. -/
theorem bits_ext {p q : List Bool} (hl : p.length = q.length) (h : ∀ j, j < p.length → bitAt p j = bitAt q j) : p = q := by
  refine List.ext_getElem hl fun j hp hq => ?_
  simpa [bitAt, hp, hq] using h j hp

section
variable {car pay : List Byte} {n bd S : Nat} (trunc : Bool) (hn : 1 ≤ n) (hbd : 1 ≤ bd) (hcar : car.length = S * bd)
  (hfit : 8 * pay.length ≤ S * n)
include hn hbd hcar hfit

/-- The low byte of a touched sample, in the full result and in the truncated one (R75). -/
theorem interleave_getD_touched {i : Nat} (hi : i < bitHeight pay.length n) :
    (interleave car pay n trunc bd).getD (i * bd) 0#8 = touchedByte car pay n bd i := by
  have hS : i < S := lt_of_lt_of_le hi (bitHeight_le _ _ _ hn hfit)
  have ha : i * bd < car.length := hcar ▸ Nat.mul_lt_mul_of_pos_right hS hbd
  have hfull : (interleave car pay n false bd).getD (i * bd) 0#8 = touchedByte car pay n bd i := by
    rw [interleave_full_getD car pay n bd hbd _ ha, Nat.mul_div_cancel i hbd, if_pos ⟨Nat.mul_mod_left i bd, hi⟩]
  cases trunc with
  | false => exact hfull
  | true => rw [interleave_true_getD car pay n bd _ (Nat.mul_lt_mul_of_pos_right hi hbd), hfull]

/-- The stream read from an interleaved carrier is the payload's: bit `j` went to bit `n - 1 - j mod n` of sample `j div n`
and is read from there (R75, R85). -/
theorem lsbStream_interleave (h8 : n ≤ 8) {nb : Nat} (hnb : nb ≤ 8 * pay.length) :
    lsbStream (interleave car pay n trunc bd) nb n bd = (bitsOf pay).take nb := by
  have hlen := length_lsbStream (interleave car pay n trunc bd) nb n bd hn
  apply bits_ext
  · rw [hlen, List.length_take, length_bitsOf, min_eq_left hnb]
  · intro j hj
    rw [hlen] at hj
    have hsample : j / n < bitHeight pay.length n := by
      rw [bitHeight, lt_ceilDiv_iff _ _ _ hn]
      have := Nat.div_mul_le_self j n
      omega
    have hmod : j % n < n := Nat.mod_lt j hn
    have hbit : j / n * n + (n - 1 - (n - 1 - j % n)) = j := by
      have := Nat.div_add_mod' j n
      omega
    rw [bitAt_lsbStream _ _ _ _ _ hn, bitAt_take, interleave_getD_touched trunc hn hbd hcar hfit hsample,
      touchedByte_getLsbD _ _ _ _ _ _ h8, if_pos (by omega), hbit]

end

/-- Settles O18: the stream read back is the payload's bits, and packing undoes `bits_of`. -/
theorem deinterleaveInvertsInterleave : Obligations.DeinterleaveInvertsInterleave := by
  unfold Obligations.DeinterleaveInvertsInterleave
  intro car pay n bd S trunc hn h8 hbd hcar hfit
  rw [deinterleave_eq, lsbStream_interleave trunc hn hbd hcar hfit h8 le_rfl, ← length_bitsOf, List.take_length,
    packBits_bitsOf]

/-! ## The command -/

/-- A bit count the carrier holds needs at most BUF_SIZE result bytes (R86). -/
theorem ChecksPass.ceilDiv_le_bufSize {p : Bool} {n bd nb : Nat} {s : State} (h : ChecksPass p n bd s)
    (hnb : nb ≤ s.sampleCount * n) : ceilDiv nb 8 ≤ Config.bufSize := by
  have hbytes : ceilDiv nb 8 ≤ s.sampleCount :=
    (ceilDiv_le_iff nb 8 _ (by decide)).2 (hnb.trans (Nat.mul_le_mul_left _ h.nlsbHigh))
  exact hbytes.trans h.sampleCount_le

/-- Settles O24: DLV delivers the deinterleaved carrier; every bit it reads lies inside the carrier. -/
theorem dlvDeinterleaves : Obligations.DlvDeinterleaves := by
  unfold Obligations.DlvDeinterleaves
  intro n bd s
  refine ⟨fun hn hbd => decode_ofNat_eq_selectOperation 2 false hbd hn (by decide) rfl, fun h hc => ?_,
    execDlv_short n bd s, exec_of_not_checksPass (i := .dlv n bd)⟩
  have hlen := length_deinterleave (s.carrier bd) s.bitCount n bd h.nlsbLow
  refine ⟨_, execDlv_done n bd s h hc, delivered_spec _ _ s hlen (h.ceilDiv_le_bufSize hc), delivered_tagw ..,
    delivered_claimed .., fun k r hk hr => ?_⟩
  rw [delivered_byteAt _ _ s hlen k hk, deinterleave_getLsbD_msb_first _ _ n bd k r h.nlsbLow hr]
  have hb := (depthSupported_bounds bd h.width).1
  by_cases hj : 8 * k + r < s.bitCount
  · rw [if_pos hj, decide_eq_true hj, Bool.true_and, s.carrier_getLsbD n bd _ h.nlsbLow hb (hj.trans_le hc)]
  · rw [if_neg hj, decide_eq_false hj, Bool.false_and]

end Sys2Proof.Machine

/-! The length framer (42_framing.md): the tag width (R95), HIDE (R98), RCV (R101), and the round trip of the two (R102). -/

namespace Sys2Proof.Machine

/-! ## The tag width -/

/-- A capacity that takes `w + 1` bytes to write has a tag of `w + 1` bytes (R95). -/
theorem tagWidth_eq_succ {cap w : Nat} (hlow : 2 ^ (8 * w) ≤ cap) (hhigh : cap < 2 ^ (8 * (w + 1))) :
    tagWidth cap = w + 1 := by
  have hle : tagWidth cap ≤ w + 1 := (tagWidth_le_iff cap _).2 hhigh
  have hgt : ¬tagWidth cap ≤ w := fun h => absurd ((tagWidth_le_iff cap w).1 h) (Nat.not_lt.2 hlow)
  omega

/-- Settles O20: each row of R95's table is the range of capacities of one width. -/
theorem tagWidthValues : Obligations.TagWidthValues := by
  unfold Obligations.TagWidthValues
  intro cap
  refine ⟨rfl, ?_, fun h1 h2 => ?_, fun h1 h2 => ?_, tagWidth_eq_succ (w := 2), tagWidth_eq_succ (w := 3)⟩
  · rintro rfl; rfl
  · exact tagWidth_eq_succ (w := 0) h1 (Nat.lt_succ_of_le h2)
  · exact tagWidth_eq_succ (w := 1) h1 (Nat.lt_succ_of_le h2)

/-- TAGW, 32 bits wide, holds the tag width whole (R22, R95). -/
theorem ChecksPass.toNat_tagWidth {p : Bool} {n bd : Nat} {s : State} (h : ChecksPass p n bd s) :
    (BitVec.ofNat 32 (tagWidth (s.capacityBits n))).toNat = tagWidth (s.capacityBits n) := by
  have htag := h.tagWidth_le
  have hbuf := bufSize_ge
  exact toNat_ofNat_of_le_bufSize _ (by omega)

/-! ## HIDE -/

/-- Settles O25: HIDE delivers the carrier interleaved with the frame, after it has written TAGW. -/
theorem hideFramesAndInterleaves : Obligations.HideFramesAndInterleaves := by
  unfold Obligations.HideFramesAndInterleaves
  intro n bd s
  refine ⟨fun hn hbd => decode_ofNat_eq_selectOperation 3 false hbd hn (by decide) rfl, fun h hc => ?_,
    execHide_capacity n bd s, exec_of_not_checksPass (i := .hide n bd)⟩
  have hb := (depthSupported_bounds bd h.width).1
  have hlen (pay : List Byte) : (interleave (s.carrier bd) pay n false bd).length = s.sampleCount * bd := by simp
  refine ⟨_, execHide_done n bd s h hc, (TagsWritten.ofTag s _ h.tagWidth_le).succeeded _ _ (hlen _) h.carrier, ?_,
    delivered_claimed .., fun a r ha _ => ?_⟩
  · rw [delivered_tagw]; exact h.toNat_tagWidth
  · rw [delivered_byteAt _ _ _ (hlen _) a ha, s.interleave_getLsbD _ _ n bd a r h.nlsbHigh hb ha (s.bitAt_frame _),
      length_frame, State.length_payload]
    rfl

/-! ## RCV -/

/-- The length RCV reads is the number the tag's bits spell, when the tag lies inside the carrier (R99). -/
theorem ChecksPass.claim_eq_tagValue {p : Bool} {n bd : Nat} {s : State} (h : ChecksPass p n bd s)
    (htag : 8 * tagWidth (s.capacityBits n) ≤ s.capacityBits n) :
    s.claim n bd = s.tagValue n bd (tagWidth (s.capacityBits n)) :=
  s.claimedLength_eq n bd _ h.nlsbLow (depthSupported_bounds bd h.width).1 htag

/-- A claimed length that fits the capacity fits OBUF (R101). -/
theorem ChecksPass.claim_le_bufSize {p : Bool} {n bd : Nat} {s : State} (h : ChecksPass p n bd s)
    (hc : 8 * (tagWidth (s.capacityBits n) + s.claim n bd) ≤ s.capacityBits n) : s.claim n bd ≤ Config.bufSize := by
  have hbits : 8 * s.claim n bd ≤ s.sampleCount * n := by unfold State.capacityBits at hc; omega
  exact (h.bytes_le _ hbits).trans h.sampleCount_le

/-- The recovered bytes are the carrier's stream from the end of the tag on (R101). -/
theorem ChecksPass.recovered_getLsbD {p : Bool} {n bd : Nat} {s : State} (h : ChecksPass p n bd s) {k r : Nat}
    (hc : 8 * (tagWidth (s.capacityBits n) + s.claim n bd) ≤ s.capacityBits n) (hk : k < s.claim n bd) (hr : r < 8) :
    ((s.recovered n bd).getD k 0#8).getLsbD (7 - r) =
      s.carrierBit n bd (8 * (tagWidth (s.capacityBits n) + k) + r) := by
  have hin : 8 * (tagWidth (s.capacityBits n) + k) + r < 8 * (tagWidth (s.capacityBits n) + s.claim n bd) := by omega
  rw [State.recovered, List.getD_eq_getElem?_getD, List.getElem?_take_of_lt hk, List.getElem?_drop,
    ← List.getD_eq_getElem?_getD, deinterleave_getLsbD_msb_first _ _ n bd _ r h.nlsbLow hr, decide_eq_true hin,
    Bool.true_and]
  exact s.carrier_getLsbD n bd _ h.nlsbLow (depthSupported_bounds bd h.width).1 (hin.trans_le hc)

/-- Delivered on top of TAGW and CLAIMED, the recovered bytes leave what every success leaves (R27, R101). -/
theorem succeeded_recovered {n bd : Nat} {s : State} (h : ChecksPass false n bd s)
    (hc : 8 * (tagWidth (s.capacityBits n) + s.claim n bd) ≤ s.capacityBits n) :
    Succeeded (s.claim n bd) s (delivered (s.claim n bd) (s.recovered n bd)
      ((s.setTagw (tagWidth (s.capacityBits n))).setClaimed (s.claim n bd))) :=
  (TagsWritten.ofTags s _ _ h.tagWidth_le).succeeded _ _ (length_recovered n bd s h.nlsbLow) (h.claim_le_bufSize hc)

/-- Settles O26: the tag's number decides between the recovered bytes and code 2. -/
theorem rcvRecovers : Obligations.RcvRecovers := by
  unfold Obligations.RcvRecovers
  intro n bd s
  refine ⟨fun hn hbd => decode_ofNat_eq_selectOperation 4 false hbd hn (by decide) rfl, fun h hc => ?_,
    execRcv_noTag n bd s, fun h htag hc => ?_, exec_of_not_checksPass (i := .rcv n bd)⟩
  · have hclaim := h.claim_eq_tagValue (by unfold State.capacityBits; omega)
    unfold State.capacityBits at hclaim
    rw [← hclaim] at hc ⊢
    refine ⟨_, execRcv_done n bd s h hc, succeeded_recovered h hc, ?_, ?_, fun k r hk hr => ?_⟩
    · rw [delivered_tagw]; exact h.toNat_tagWidth
    · rw [delivered_claimed]; exact toNat_ofNat_of_le_bufSize _ (h.claim_le_bufSize hc)
    · rw [delivered_byteAt _ _ _ (length_recovered n bd s h.nlsbLow) k hk]
      exact h.recovered_getLsbD hc hk hr
  · have hclaim := h.claim_eq_tagValue htag
    unfold State.capacityBits at hclaim
    rw [← hclaim] at hc ⊢
    exact execRcv_corrupted n bd s h htag hc

/-! ## The tag width is known on both sides -/

/-- HIDE writes TAGW before the capacity check, so on both its outcomes (R98). -/
theorem exec_hide_tagw {n bd : Nat} {s : State} (h : ChecksPass true n bd s) :
    ∃ t, exec (.hide n bd) s = .next t ∧ t.tagw = BitVec.ofNat 32 (tagWidth (s.capacityBits n)) := by
  rcases Nat.lt_or_ge (s.capacityBits n) (8 * (tagWidth (s.capacityBits n) + s.payloadLength)) with hc | hc
  · exact ⟨_, execHide_capacity n bd s h hc, rfl⟩
  · exact ⟨_, execHide_done n bd s h hc, delivered_tagw ..⟩

/-- RCV writes TAGW before it looks at the tag, so on all three outcomes (R101). -/
theorem exec_rcv_tagw {n bd : Nat} {s : State} (h : ChecksPass false n bd s) :
    ∃ t, exec (.rcv n bd) s = .next t ∧ t.tagw = BitVec.ofNat 32 (tagWidth (s.capacityBits n)) := by
  rcases Nat.lt_or_ge (s.capacityBits n) (8 * tagWidth (s.capacityBits n)) with hw | hw
  · exact ⟨_, execRcv_noTag n bd s h hw, rfl⟩
  rcases Nat.lt_or_ge (s.capacityBits n) (8 * (tagWidth (s.capacityBits n) + s.claim n bd)) with hc | hc
  · exact ⟨_, execRcv_corrupted n bd s h hw hc, rfl⟩
  · exact ⟨_, execRcv_done n bd s h hc, delivered_tagw ..⟩

/-- Settles O45: both commands write the width of one capacity. -/
theorem tagWidthIsDetermined : Obligations.TagWidthIsDetermined := by
  unfold Obligations.TagWidthIsDetermined
  intro n bd bd' s u hs hu hscount
  obtain ⟨t, ht, htagw⟩ := exec_hide_tagw hs
  obtain ⟨v, hv, htagw'⟩ := exec_rcv_tagw hu
  have hcap : u.capacityBits n = s.capacityBits n := congrArg (fun w : Word => w.toNat * n) hscount.symm
  refine ⟨t, v, ht, hv, ?_, ?_⟩
  · rw [htagw, htagw', hcap]
  · rw [htagw]; exact hs.toNat_tagWidth

/-! ## The round trip -/

/-- A stretch of a buffer that holds a byte sequence reads as that sequence (R12). -/
theorem State.bytesAt_eq_of_byteAt {s : State} {sp : Space} {v : List Byte}
    (h : ∀ k, k < v.length → s.byteAt sp k = v.getD k 0#8) : s.bytesAt sp 0 v.length = v := by
  apply bytes_ext (s.length_bytesAt ..)
  intro k r hk _
  rw [State.length_bytesAt] at hk
  rw [State.bytesAt_getD _ _ _ _ _ hk, Nat.zero_add, h k hk]

theorem State.payload_getD (s : State) {k : Nat} (hk : k < s.payloadLength) : s.payload.getD k 0#8 = s.byteAt .pbuf k := by
  rw [State.payload, State.bytesAt_getD _ _ _ _ _ hk, Nat.zero_add]

/-- A length that passed the capacity check fits the tag (R96). -/
theorem lt_two_pow_of_frame_fits {cap len : Nat} (h : 8 * (tagWidth cap + len) ≤ cap) : len < 2 ^ (8 * tagWidth cap) := by
  have := lt_two_pow_tagWidth cap
  omega

/-- The first part of what was interleaved is read back alone (R87). -/
theorem deinterleave_interleave_append {car p q : List Byte} {n bd S : Nat} (hn : 1 ≤ n) (h8 : n ≤ 8) (hbd : 1 ≤ bd)
    (hcar : car.length = S * bd) (hfit : 8 * (p ++ q).length ≤ S * n) :
    deinterleave (interleave car (p ++ q) n false bd) (8 * p.length) n bd = p := by
  have hp : 8 * p.length ≤ 8 * (p ++ q).length := by rw [List.length_append]; omega
  rw [deinterleave_eq, lsbStream_interleave false hn hbd hcar hfit h8 hp, bitsOf_append, ← length_bitsOf, List.take_left,
    packBits_bitsOf]

section
variable {n bd : Nat} {u : State} {car pay : List Byte} (h : ChecksPass false n bd u)
  (hcar : car.length = u.sampleCount * bd) (hfit : 8 * (tagWidth (u.capacityBits n) + pay.length) ≤ u.capacityBits n)
  (hheld : u.carrier bd = interleave car (frame pay (tagWidth (u.capacityBits n))) n false bd)
include h hcar hfit hheld

/-- From a carrier that holds a frame, RCV reads the payload's length (R99, R102). -/
theorem claim_of_frame_held : u.claim n bd = pay.length := by
  have hb := (depthSupported_bounds bd h.width).1
  have hread := deinterleave_interleave_append (p := leBytes pay.length (tagWidth (u.capacityBits n))) (q := pay)
    h.nlsbLow h.nlsbHigh hb hcar (by rw [List.length_append, length_leBytes]; exact hfit)
  rw [length_leBytes] at hread
  rw [State.claim, claimedLength, hheld, frame, hread, leValue_leBytes _ _ (lt_two_pow_of_frame_fits hfit)]

/-- From a carrier that holds a frame, RCV recovers the payload (R102). -/
theorem recovered_of_frame_held : u.recovered n bd = pay := by
  have hb := (depthSupported_bounds bd h.width).1
  have hread := deinterleave_interleave_append (p := frame pay (tagWidth (u.capacityBits n))) (q := [])
    h.nlsbLow h.nlsbHigh hb hcar (by rw [List.append_nil, length_frame]; exact hfit)
  rw [List.append_nil, length_frame] at hread
  rw [State.recovered, claim_of_frame_held h hcar hfit hheld, hheld, hread, frame, List.drop_left' (length_leBytes _ _),
    List.take_length]

end

/-- Settles O43: the carrier RCV reads is HIDE's result, so its stream starts with the frame. -/
theorem hideThenRcvRoundTrip : Obligations.HideThenRcvRoundTrip := by
  unfold Obligations.HideThenRcvRoundTrip
  intro n bd s h hc
  have hlen (pay : List Byte) : (interleave (s.carrier bd) pay n false bd).length = s.sampleCount * bd := by simp
  refine ⟨_, execHide_done n bd s h hc, rfl, fun u hscount hcbuf => ?_⟩
  have hS : u.sampleCount = s.sampleCount := congrArg BitVec.toNat hscount
  have hcap : u.capacityBits n = s.capacityBits n := congrArg (· * n) hS
  have hu : ChecksPass false n bd u := ⟨h.width, h.nlsbLow, h.nlsbHigh, by rw [hS]; exact h.carrier, nofun⟩
  have hcar : (s.carrier bd).length = u.sampleCount * bd := by rw [State.length_carrier, hS]
  have hfit : 8 * (tagWidth (u.capacityBits n) + s.payload.length) ≤ u.capacityBits n := by
    rw [hcap, State.length_payload]; exact hc
  have hheld : u.carrier bd = interleave (s.carrier bd) (frame s.payload (tagWidth (u.capacityBits n))) n false bd := by
    rw [State.carrier, hS, hcap, ← hlen (frame s.payload (tagWidth (s.capacityBits n)))]
    refine State.bytesAt_eq_of_byteAt fun k hk => ?_
    rw [hlen] at hk
    rw [hcbuf k hk, delivered_byteAt _ _ _ (hlen _) k hk]
  have hclaim := claim_of_frame_held hu hcar hfit hheld
  have hrec := recovered_of_frame_held hu hcar hfit hheld
  have hdone := execRcv_done n bd u hu (by rwa [hclaim])
  have hok := succeeded_recovered hu (by rwa [hclaim])
  rw [hclaim, hrec] at hdone hok
  refine ⟨_, hdone, hok.status, hok.rlen.trans s.length_payload, fun k hk => ?_⟩
  rw [delivered_byteAt _ _ _ rfl k (by rwa [State.length_payload]), s.payload_getD hk]

end Sys2Proof.Machine

/-! The errors (60_exceptions.md): the order of the checks (R109), the code each command ends with (R112, R113), and what an
abort leaves in the buffers (R116). -/

namespace Sys2Proof.Machine

/-! ## The common checks in their order -/

section
variable (p : Bool) (n bd : Nat) (s : State)

theorem failedCheck_width (hw : Config.depthSupported bd = false) :
    failedCheck p n bd s = some .unsupportedSampleWidth := if_pos hw

theorem failedCheck_nlsb (hw : Config.depthSupported bd = true) (hn : n < 1 ∨ 8 < n) :
    failedCheck p n bd s = some .invalidOperand := by
  have hbad : nlsbOk n = false := by
    rw [nlsbOk, Bool.and_eq_false_iff, decide_eq_false_iff_not, decide_eq_false_iff_not]; omega
  rw [failedCheck, if_neg (by simp [depthOk, hw]), if_pos hbad]

theorem failedCheck_carrier (hw : Config.depthSupported bd = true) (h1 : 1 ≤ n) (h8 : n ≤ 8)
    (hc : Config.bufSize < s.sampleCount * bd) : failedCheck p n bd s = some .invalidOperand := by
  rw [failedCheck, if_neg (by simp [depthOk, hw]), if_neg (by simp [nlsbOk, h1, h8]),
    if_pos ((fitsBuffer_false_iff _).2 hc)]

theorem failedCheck_payload (hw : Config.depthSupported bd = true) (h1 : 1 ≤ n) (h8 : n ≤ 8)
    (hc : s.sampleCount * bd ≤ Config.bufSize) (hl : Config.bufSize < s.payloadLength) :
    failedCheck true n bd s = some .invalidOperand := by
  rw [failedCheck, if_neg (by simp [depthOk, hw]), if_neg (by simp [nlsbOk, h1, h8]),
    if_neg (by simp [fitsBuffer_iff, hc]), if_pos ⟨rfl, (fitsBuffer_false_iff _).2 hl⟩]

end

/-- No instance supports width 0 (R7, R111). -/
theorem depthSupported_eq_false {bd : Nat} (h : Config.depthSupported bd = false ∨ bd = 0) :
    Config.depthSupported bd = false := by
  rcases h with h | rfl
  · exact h
  · decide

/-- The commands of check 5 (R110 (c)). -/
theorem usesPayload_iff (i : Instr) :
    usesPayload i = true ↔ i ∈ [Instr.ilv i.nlsb i.bdepth, .ilvt i.nlsb i.bdepth, .hide i.nlsb i.bdepth] := by
  cases i <;> simp [usesPayload, Instr.nlsb, Instr.bdepth]

/-- Settles O27: each check, the earlier ones passed, is the one that names the code. -/
theorem checksDecideInOrder : Obligations.ChecksDecideInOrder := by
  unfold Obligations.ChecksDecideInOrder
  intro w s i
  refine ⟨fun ⟨e, he⟩ => execWord_error w e s he, fun hi => ⟨execWord_ok w i s hi, ?_⟩, fun hw => ?_, fun hw hn => ?_,
    fun hw h1 h8 hc => ?_, fun hw h1 h8 hc hl hi => ?_, fun hw h1 h8 hc hnb hi => ?_⟩
  · obtain ⟨-, -, hrow⟩ := (decode_eq_ok_iff w i).1 hi
    simpa using (selectOperation_eq_ok_iff ..).1 hrow
  · exact exec_failedCheck i s _ (failedCheck_width _ _ _ s (depthSupported_eq_false hw))
  · exact exec_failedCheck i s _ (failedCheck_nlsb _ _ _ s hw hn)
  · exact exec_failedCheck i s _ (failedCheck_carrier _ _ _ s hw h1 h8 hc)
  · refine exec_failedCheck i s .invalidOperand ?_
    rw [(usesPayload_iff i).2 hi]
    exact failedCheck_payload _ _ s hw h1 h8 hc hl
  · rw [hi]
    exact execDlv_short _ _ s ⟨hw, h1, h8, hc, nofun⟩ hnb

/-! ## The code a command ends with -/

theorem statusWord_inj (c d : Code) : c.statusWord = d.statusWord ↔ c = d := by cases c <;> cases d <;> decide

/-- The code a command's own check ends it with, once the common checks have passed: the capacity (R112), the tag's claim
(R113), the bit count (R110). -/
def bodyCode (s : State) : Instr → Code
  | .ilv n _ | .ilvt n _ => if s.sampleCount * n < 8 * s.payloadLength then .capacityExceeded else .ok
  | .dlv n _ => if s.sampleCount * n < s.bitCount then .invalidOperand else .ok
  | .hide n _ =>
    if s.sampleCount * n < 8 * (tagWidth (s.sampleCount * n) + s.payloadLength) then .capacityExceeded else .ok
  | .rcv n bd => if s.sampleCount * n < 8 * (tagWidth (s.sampleCount * n) + s.claim n bd) then .corruptedCarrier else .ok

/-- An answer that is a next state with code `c` in STATUS. -/
def EndsWith (c : Code) (o : Answer) : Prop := ∃ t, o = .next t ∧ t.status = c.statusWord

theorem endsWith_aborted {c : Code} {s : State} {o : Answer} (h : o = .next (aborted c s)) : EndsWith c o := ⟨_, h, rfl⟩

theorem endsWith_delivered {len : Nat} {r : List Byte} {s : State} {o : Answer} (h : o = .next (delivered len r s)) :
    EndsWith .ok o := ⟨_, h, rfl⟩

/-- A check of one number against another decides between two codes. -/
theorem endsWith_ite_lt {x y : Nat} {c d : Code} {o : Answer} (hlt : x < y → EndsWith c o) (hle : y ≤ x → EndsWith d o) :
    EndsWith (if x < y then c else d) o := by
  split
  · next h => exact hlt h
  · next h => exact hle (Nat.le_of_not_lt h)

/-- When the common checks pass, the command's own check decides the code (R109). -/
theorem exec_endsWith_bodyCode {i : Instr} {s : State} (h : ChecksPass (usesPayload i) i.nlsb i.bdepth s) :
    EndsWith (bodyCode s i) (exec i s) := by
  cases i with
  | ilv n bd =>
    exact endsWith_ite_lt (fun hc => endsWith_aborted (execIlv_capacity n bd s h hc))
      fun hc => endsWith_delivered (execIlv_done n bd s h hc)
  | ilvt n bd =>
    exact endsWith_ite_lt (fun hc => endsWith_aborted (execIlvt_capacity n bd s h hc))
      fun hc => endsWith_delivered (execIlvt_done n bd s h hc)
  | dlv n bd =>
    exact endsWith_ite_lt (fun hc => endsWith_aborted (execDlv_short n bd s h hc))
      fun hc => endsWith_delivered (execDlv_done n bd s h hc)
  | hide n bd =>
    exact endsWith_ite_lt (fun hc => endsWith_aborted (execHide_capacity n bd s h hc))
      fun hc => endsWith_delivered (execHide_done n bd s h hc)
  | rcv n bd =>
    refine endsWith_ite_lt (fun hc => ?_) fun hc => endsWith_delivered (execRcv_done n bd s h hc)
    rcases Nat.lt_or_ge (s.capacityBits n) (8 * tagWidth (s.capacityBits n)) with hw | hw
    · exact endsWith_aborted (execRcv_noTag n bd s h hw)
    · exact endsWith_aborted (execRcv_corrupted n bd s h hw hc)

/-- A failed common check names code 3 or 4, so a command that ends with any other code has passed them all (R110, R111). -/
theorem exec_status_iff (i : Instr) (s : State) : ∃ t, exec i s = .next t ∧
    ∀ c, c ≠ .unsupportedSampleWidth → c ≠ .invalidOperand →
      (t.status = c.statusWord ↔ ChecksPass (usesPayload i) i.nlsb i.bdepth s ∧ bodyCode s i = c) := by
  rcases failedCheck_cases (usesPayload i) i.nlsb i.bdepth s with ⟨d, hf⟩ | h
  · refine ⟨_, exec_failedCheck i s d hf, fun c h3 h4 => iff_of_false (fun hst => ?_) fun ⟨h, _⟩ => ?_⟩
    · obtain rfl := (statusWord_inj d c).1 hst
      exact (failedCheck_code _ _ _ _ _ hf).elim h3 h4
    · rw [(failedCheck_none_iff ..).2 h] at hf
      cases hf
  · obtain ⟨t, ht, hst⟩ := exec_endsWith_bodyCode h
    refine ⟨t, ht, fun c _ _ => ?_⟩
    rw [hst, statusWord_inj, and_iff_right h]

/-! ## CapacityExceeded -/

/-- Settles O29: of the five commands' own checks, those of ILV, ILVT and HIDE end with code 1. -/
theorem capacityExceededExactlyWhen : Obligations.CapacityExceededExactlyWhen := by
  unfold Obligations.CapacityExceededExactlyWhen
  intro i s
  obtain ⟨t, ht, hst⟩ := exec_status_iff i s
  refine ⟨t, ht, (hst .capacityExceeded (by decide) (by decide)).trans ?_⟩
  cases i with
  | ilv n bd | ilvt n bd | hide n bd => simp [bodyCode, usesPayload, Instr.nlsb, Instr.bdepth]
  | dlv n bd | rcv n bd => simp [bodyCode, ite_eq_iff]

/-! ## CorruptedCarrier -/

/-- The tag alone is wider than the carrier's bits only at capacities 1 to 7: from 8 on a tag of `cap / 8` bytes spells `cap`
(R95, R113). -/
theorem lt_tagWidth_iff (cap : Nat) : cap < 8 * tagWidth cap ↔ 1 ≤ cap ∧ cap ≤ 7 := by
  have hfits : tagWidth cap ≤ cap / 8 ↔ cap < 2 ^ (8 * (cap / 8)) := tagWidth_le_iff cap _
  rcases Nat.lt_or_ge cap 8 with hlow | hhigh
  · rw [Nat.div_eq_of_lt hlow] at hfits
    omega
  · have hpow : 2 ^ (8 * (cap / 8)) = 2 * 2 ^ (8 * (cap / 8) - 1) := by rw [← Nat.pow_succ']; congr 1; omega
    have hlt : 8 * (cap / 8) - 1 < 2 ^ (8 * (cap / 8) - 1) := Nat.lt_two_pow_self
    omega

/-- RCV's check on the length it read is R113's on the number the tag spells: the two agree when the tag fits, and both fail
when it does not. -/
theorem ChecksPass.lt_claim_iff {p : Bool} {n bd : Nat} {s : State} (h : ChecksPass p n bd s) :
    s.capacityBits n < 8 * (tagWidth (s.capacityBits n) + s.claim n bd) ↔
      s.capacityBits n < 8 * tagWidth (s.capacityBits n) ∨
        s.capacityBits n < 8 * (tagWidth (s.capacityBits n) + s.tagValue n bd (tagWidth (s.capacityBits n))) := by
  rcases Nat.lt_or_ge (s.capacityBits n) (8 * tagWidth (s.capacityBits n)) with hw | hw
  · exact iff_of_true (by omega) (.inl hw)
  · rw [h.claim_eq_tagValue hw, or_iff_right (Nat.not_lt.2 hw)]

/-- Settles O30: of the five commands' own checks, RCV's alone ends with code 2. -/
theorem corruptedCarrierExactlyWhen : Obligations.CorruptedCarrierExactlyWhen := by
  unfold Obligations.CorruptedCarrierExactlyWhen
  intro i s
  obtain ⟨t, ht, hst⟩ := exec_status_iff i s
  refine ⟨t, ht, (hst .corruptedCarrier (by decide) (by decide)).trans ?_, fun n bd _ => lt_tagWidth_iff _⟩
  cases i with
  | rcv n bd =>
    constructor
    · rintro ⟨h, hc⟩
      have hlt : s.sampleCount * n < 8 * (tagWidth (s.sampleCount * n) + s.claim n bd) := by simpa [bodyCode] using hc
      exact ⟨n, bd, rfl, h, h.lt_claim_iff.1 hlt⟩
    · rintro ⟨_, _, ⟨⟩, h, hlt⟩
      exact ⟨h, if_pos (h.lt_claim_iff.2 hlt)⟩
  | ilv n bd | ilvt n bd | dlv n bd | hide n bd => simp [bodyCode, ite_eq_iff]

/-! ## An abort and the buffers -/

/-- The tag registers' writes change no buffer (R98, R101). -/
theorem TagsWritten.byteAt_eq {s s1 : State} (k : TagsWritten s s1) (sp : Space) (a : Nat) :
    s1.byteAt sp a = s.byteAt sp a := by
  obtain ⟨⟨tw, cl, rfl⟩, -⟩ := k
  cases sp <;> rfl

/-- Settles O33: a nonzero code means an abort, which writes registers only. -/
theorem abortLeavesEveryBuffer : Obligations.AbortLeavesEveryBuffer := by
  unfold Obligations.AbortLeavesEveryBuffer
  intro w s
  rcases execWord_cases w s with ⟨c, s1, -, k, h⟩ | ⟨len, r, s1, -, -, -, h⟩
  · exact ⟨_, h, fun _ => ⟨rfl, fun sp a => (aborted_byteAt c s1 sp a).trans (k.byteAt_eq sp a)⟩⟩
  · exact ⟨_, h, fun hst => absurd rfl hst⟩

end Sys2Proof.Machine

/-! The two directions of the encoding (30_encoding.md sections 1 and 6), and the match and mask of its section 3 (R73). -/

namespace Sys2Proof

/-! ## An assembled word -/

theorem decode_assemble {bd n op : Nat} (t : Bool) (hbd : bd < 256) (hn : n < 256) (hop : op < 16) :
    decode (assemble bd n t op) = selectOperation op t n bd := by
  rw [assemble, Nat.add_assoc]
  exact decode_ofNat_eq_selectOperation op t hbd hn hop rfl

theorem Instr.wellFormed_iff (i : Instr) : i.WellFormed = true ↔ i.nlsb < 256 ∧ i.bdepth < 256 := by
  simp [Instr.WellFormed, Instr.nlsbFits, Instr.bdepthFits]

/-- Settles O1: each command's word is assembled from its row of R62's table, and decoding selects that row again. -/
theorem decodeEncodeRoundTrip : Obligations.DecodeEncodeRoundTrip := by
  unfold Obligations.DecodeEncodeRoundTrip
  intro i hi
  obtain ⟨hn, hbd⟩ := i.wellFormed_iff.1 hi
  cases i with
  | ilv n bd => exact decode_assemble (op := 1) false hbd hn (by decide)
  | ilvt n bd => exact decode_assemble (op := 1) true hbd hn (by decide)
  | dlv n bd => exact decode_assemble (op := 2) false hbd hn (by decide)
  | hide n bd => exact decode_assemble (op := 3) false hbd hn (by decide)
  | rcv n bd => exact decode_assemble (op := 4) false hbd hn (by decide)

/-! ## A word that decodes -/

/-- A word with zeros in the reserved fields is assembled from its other four (R61). -/
theorem eq_assemble_fields {w : Word} (hrsv1 : fieldRsv1 w = 0) (hrsv0 : fieldRsv0 w = 0) :
    w = assemble (fieldBdepth w) (fieldNlsb w) (fieldT w) (fieldOp w) := by
  have hsum : fieldBdepth w * 2 ^ 16 + fieldNlsb w * 2 ^ 8 + (fieldT w).toNat * 2 ^ 4 + fieldOp w = w.toNat := by
    rw [toNat_eq_sum_fields w, hrsv1, hrsv0]; omega
  rw [assemble, hsum, BitVec.ofNat_toNat, BitVec.setWidth_eq]

/-- Settles O2: the word is assembled from its fields, and the row its `OP` and `T` select encodes to that. -/
theorem decodedWordIsItsEncoding : Obligations.DecodedWordIsItsEncoding := by
  unfold Obligations.DecodedWordIsItsEncoding
  intro w i hi
  obtain ⟨hrsv1, hrsv0, hrow⟩ := (decode_eq_ok_iff w i).1 hi
  have hn : fieldNlsb w < 256 := BitVec.isLt _
  have hbd : fieldBdepth w < 256 := BitVec.isLt _
  have hword := eq_assemble_fields hrsv1 hrsv0
  rw [Instr.wellFormed_iff]
  rcases (selectOperation_eq_ok_iff ..).1 hrow with
    ⟨hop, ht, rfl⟩ | ⟨hop, ht, rfl⟩ | ⟨hop, ht, rfl⟩ | ⟨hop, ht, rfl⟩ | ⟨hop, ht, rfl⟩ <;>
  · rw [hop, ht] at hword
    exact ⟨⟨hn, hbd⟩, hword.symm⟩

/-! ## Match and mask -/

/-- The mask of R73 keeps bytes 3 and 0 of a word. -/
theorem toNat_and_mask (w : Word) :
    (w &&& 0xFF0000FF#32).toNat =
      fieldRsv1 w * 2 ^ 24 + (fieldRsv0 w * 2 ^ 5 + (fieldT w).toNat * 2 ^ 4 + fieldOp w) := by
  have hhigh : w.toNat &&& 0xFF <<< 24 = fieldRsv1 w <<< 24 := by
    rw [fieldRsv1_eq, ← Nat.and_two_pow_sub_one_eq_mod, ← Nat.shiftRight_eq_div_pow]
    apply Nat.eq_of_testBit_eq
    intro j
    simp only [Nat.testBit_and, Nat.testBit_shiftLeft, Nat.testBit_shiftRight]
    by_cases hj : 24 ≤ j
    · rw [Nat.add_sub_cancel' hj, Bool.and_left_comm]
    · simp only [ge_iff_le, hj, decide_false, Bool.false_and, Bool.and_false]
  have hlow : w.toNat &&& 0xFF = fieldRsv0 w * 2 ^ 5 + (fieldT w).toNat * 2 ^ 4 + fieldOp w := by
    rw [fieldRsv0_eq, fieldT_toNat, fieldOp_eq, Nat.and_two_pow_sub_one_eq_mod w.toNat 8]
    omega
  have hlt : w.toNat &&& 0xFF < 2 ^ 24 := lt_of_le_of_lt Nat.and_le_right (by decide)
  calc (w &&& 0xFF0000FF#32).toNat = w.toNat &&& (0xFF <<< 24 ||| 0xFF) := rfl
    _ = fieldRsv1 w <<< 24 + (w.toNat &&& 0xFF) := by
      rw [Nat.and_or_distrib_left, hhigh, Nat.shiftLeft_add_eq_or_of_lt hlt]
    _ = _ := by rw [hlow, Nat.shiftLeft_eq]

/-- What is left under the mask says the reserved fields are 0 and names `T` and `OP`: a match value is a row's word without
its operands (R73). -/
theorem and_mask_eq_iff (w : Word) (t : Bool) {op : Nat} (hop : op < 16) :
    w &&& 0xFF0000FF#32 = assemble 0 0 t op ↔ fieldRsv1 w = 0 ∧ fieldRsv0 w = 0 ∧ fieldOp w = op ∧ fieldT w = t := by
  have hT : fieldT w = t ↔ (fieldT w).toNat = t.toNat := by cases fieldT w <;> cases t <;> decide
  have hle : (fieldT w).toNat ≤ 1 := Bool.toNat_le _
  have hle' : t.toNat ≤ 1 := Bool.toNat_le _
  have hlt : fieldOp w < 16 := BitVec.isLt _
  rw [← BitVec.toNat_inj, toNat_and_mask, toNat_assemble t (by decide) (by decide) hop, hT]
  omega

theorem decode_eq_ok_iff_and_mask (w : Word) (i : Instr) (t : Bool) {op : Nat} (hop : op < 16)
    (hrow : selectOperation (fieldOp w) (fieldT w) (fieldNlsb w) (fieldBdepth w) = .ok i ↔ fieldOp w = op ∧ fieldT w = t) :
    decode w = .ok i ↔ w &&& 0xFF0000FF#32 = assemble 0 0 t op := by
  rw [decode_eq_ok_iff, hrow, and_mask_eq_iff w t hop]

/-- Settles O5: the five match values are the five rows of R62's table, and every other word is illegal. -/
theorem commandsMatchUnderTheMask : Obligations.CommandsMatchUnderTheMask := by
  unfold Obligations.CommandsMatchUnderTheMask
  intro w
  refine ⟨decode_eq_ok_iff_and_mask w _ false (op := 1) (by decide) ?_,
    decode_eq_ok_iff_and_mask w _ true (op := 1) (by decide) ?_,
    decode_eq_ok_iff_and_mask w _ false (op := 2) (by decide) ?_,
    decode_eq_ok_iff_and_mask w _ false (op := 3) (by decide) ?_,
    decode_eq_ok_iff_and_mask w _ false (op := 4) (by decide) ?_, ?_⟩
  case refine_6 =>
    have hilv := and_mask_eq_iff w false (op := 1) (by decide)
    have hilvt := and_mask_eq_iff w true (op := 1) (by decide)
    have hdlv := and_mask_eq_iff w false (op := 2) (by decide)
    have hhide := and_mask_eq_iff w false (op := 3) (by decide)
    have hrcv := and_mask_eq_iff w false (op := 4) (by decide)
    change _ ↔ w &&& 0xFF0000FF#32 ∉
      [assemble 0 0 false 1, assemble 0 0 true 1, assemble 0 0 false 2, assemble 0 0 false 3, assemble 0 0 false 4]
    simp only [decode_eq_error_iff, selectOperation_eq_error_iff, List.mem_cons, List.not_mem_nil, or_false, hilv, hilvt,
      hdlv, hhide, hrcv]
    cases fieldT w <;> simp <;> omega
  all_goals simp [selectOperation_eq_ok_iff]

/-- Settles O7: the nine words, decoded. -/
theorem sampleWordsDecode : Obligations.SampleWordsDecode := by
  unfold Obligations.SampleWordsDecode
  exact ⟨rfl, rfl, rfl, rfl, rfl, rfl, rfl, rfl, rfl⟩

end Sys2Proof

/-! What an interleave leaves alone, forgets and repeats (R78, R79), and what a shorter deinterleave gives back (R87). -/

namespace Sys2Proof.Machine

section
variable {car pay : List Byte} {n bd S : Nat} (hbd : 1 ≤ bd) (hcar : car.length = S * bd)
include hbd hcar

/-! ## One sample of the full result -/

/-- The low byte of a sample is touched when the sample is one of the first `bh` (R75). -/
theorem interleave_getD_sample {i : Nat} (hi : i < S) :
    (interleave car pay n false bd).getD (i * bd) 0#8 =
      if i < bitHeight pay.length n then touchedByte car pay n bd i else car.getD (i * bd) 0#8 := by
  have ha : i * bd < car.length := hcar ▸ Nat.mul_lt_mul_of_pos_right hi hbd
  rw [interleave_full_getD car pay n bd hbd _ ha, Nat.mul_mod_left, Nat.mul_div_cancel i hbd]
  simp only [true_and]

/-- A byte that is not the low byte of a touched sample is the carrier's (R75). -/
theorem interleave_getD_untouched {a : Nat} (ha : a < S * bd) (h : ¬(a % bd = 0 ∧ a / bd < bitHeight pay.length n)) :
    (interleave car pay n false bd).getD a 0#8 = car.getD a 0#8 := by
  rw [interleave_full_getD car pay n bd hbd a (hcar ▸ ha), if_neg h]

/-- The bits from `n` up of every low byte are the carrier's (R79). -/
theorem interleave_getLsbD_high (h8 : n ≤ 8) {i r : Nat} (hi : i < S) (hr : n ≤ r) :
    ((interleave car pay n false bd).getD (i * bd) 0#8).getLsbD r = (car.getD (i * bd) 0#8).getLsbD r := by
  rw [interleave_getD_sample hbd hcar hi]
  split
  · rw [touchedByte_getLsbD car pay n bd i r h8, if_neg (Nat.not_lt.2 hr)]
  · rfl

end

theorem lt_bitHeight_iff (len n i : Nat) (hn : 1 ≤ n) : i < bitHeight len n ↔ i * n < 8 * len := lt_ceilDiv_iff _ _ i hn

/-- The low bits of the last touched sample that no payload bit reaches are 0 (R79, R18). -/
theorem touchedByte_pad (car pay : List Byte) {n bd r : Nat} (hn : 1 ≤ n) (h8 : n ≤ 8) (hpay : 1 ≤ pay.length)
    (hr : r < n * bitHeight pay.length n - 8 * pay.length) :
    (touchedByte car pay n bd (bitHeight pay.length n - 1)).getLsbD r = false := by
  obtain ⟨m, hm⟩ : ∃ m, bitHeight pay.length n = m + 1 :=
    Nat.exists_eq_add_of_le' ((lt_bitHeight_iff _ n 0 hn).2 (by omega))
  have hlast : m * n < 8 * pay.length := (lt_bitHeight_iff _ n m hn).1 (by omega)
  rw [hm, Nat.mul_succ, Nat.mul_comm n m] at hr
  rw [hm, Nat.add_sub_cancel, touchedByte_getLsbD car pay n bd m r h8, if_pos (by omega),
    bitAt_eq_false _ _ (by rw [length_bitsOf]; omega)]

/-- Settles O14: each kind of byte that is left alone, and the pad bits, which lie past the payload's last bit. -/
theorem interleaveLeavesTheRestAlone : Obligations.InterleaveLeavesTheRestAlone := by
  unfold Obligations.InterleaveLeavesTheRestAlone
  intro car pay n bd S hn h8 hbd hcar hfit
  refine ⟨fun i r hi hr => interleave_getLsbD_high hbd hcar h8 hi hr, fun i j hi hj1 hj => ?_, fun i hb hi => ?_,
    fun r hpay hr => ?_⟩
  · have hin : i * bd + j < S * bd := by
      have : (i + 1) * bd ≤ S * bd := Nat.mul_le_mul_right bd hi
      rw [Nat.succ_mul] at this
      omega
    have hmod : (i * bd + j) % bd = j := by rw [Nat.mul_add_mod', Nat.mod_eq_of_lt hj]
    exact interleave_getD_untouched hbd hcar hin fun h => by omega
  · rw [interleave_getD_sample hbd hcar hi]
    exact if_neg (Nat.not_lt.2 hb)
  · have hpos : 0 < bitHeight pay.length n := (lt_bitHeight_iff _ n 0 hn).2 (by omega)
    have htouched := interleave_getD_touched false hn hbd hcar hfit (Nat.sub_one_lt_of_lt hpos)
    rw [bitHeight] at htouched
    rw [htouched]
    exact touchedByte_pad car pay hn h8 hpay hr

/-- Settles O15: the interleaver keeps the length, and truncation takes the first `bh` samples. -/
theorem interleaveLengthAndPrefix : Obligations.InterleaveLengthAndPrefix := by
  unfold Obligations.InterleaveLengthAndPrefix
  intro car pay n bd S hn _ _ hcar hfit
  exact ⟨length_interleave_full car pay n bd, length_interleave_trunc car pay n bd S hn hcar hfit,
    interleave_true_getD car pay n bd⟩

/-! ## The overwritten bits do not matter -/

/-- A touched low byte depends on the carrier's bits from `n` up only (R75). -/
theorem touchedByte_congr {car car' : List Byte} (pay : List Byte) {n bd i : Nat} (h8 : n ≤ 8)
    (h : ∀ r, n ≤ r → (car.getD (i * bd) 0#8).getLsbD r = (car'.getD (i * bd) 0#8).getLsbD r) :
    touchedByte car pay n bd i = touchedByte car' pay n bd i := by
  apply BitVec.eq_of_getLsbD_eq
  intro r _
  rw [touchedByte_getLsbD _ _ _ _ _ _ h8, touchedByte_getLsbD _ _ _ _ _ _ h8]
  split
  · rfl
  · next hr => exact h r (Nat.le_of_not_lt hr)

/-- Two byte sequences of one length with the same bytes are equal. -/
theorem bytes_ext_getD {s t : List Byte} (hl : s.length = t.length) (h : ∀ a, a < s.length → s.getD a 0#8 = t.getD a 0#8) :
    s = t :=
  bytes_ext hl fun a r ha _ => congrArg (BitVec.getLsbD · r) (h a ha)

/-- R78 (c): the result depends on the carrier outside the bits it overwrites only. -/
theorem interleave_congr {car car' pay : List Byte} {n bd S : Nat} (h8 : n ≤ 8) (hbd : 1 ≤ bd)
    (hcar : car.length = S * bd) (hcar' : car'.length = S * bd)
    (hrest : ∀ a, a < S * bd → ¬(a % bd = 0 ∧ a / bd < bitHeight pay.length n) → car.getD a 0#8 = car'.getD a 0#8)
    (hhigh : ∀ i r, i < bitHeight pay.length n → n ≤ r →
      (car.getD (i * bd) 0#8).getLsbD r = (car'.getD (i * bd) 0#8).getLsbD r) :
    interleave car pay n false bd = interleave car' pay n false bd := by
  apply bytes_ext_getD
  · rw [length_interleave_full, length_interleave_full, hcar, hcar']
  · intro a ha
    rw [length_interleave_full, hcar] at ha
    rw [interleave_full_getD car pay n bd hbd a (hcar ▸ ha), interleave_full_getD car' pay n bd hbd a (hcar' ▸ ha)]
    split
    · next h => exact touchedByte_congr pay h8 fun r => hhigh _ r h.2
    · next h => exact hrest a ha h

/-- Settles O16: an interleaved carrier differs from the carrier in overwritten bits only, so the second clause is a case of
the first. -/
theorem interleaveForgetsAndRepeats : Obligations.InterleaveForgetsAndRepeats := by
  unfold Obligations.InterleaveForgetsAndRepeats
  intro car car' pay n bd S hn h8 hbd hcar hcar' hfit
  refine ⟨interleave_congr h8 hbd hcar hcar', interleave_congr h8 hbd ?_ hcar ?_ ?_⟩
  · rw [length_interleave_full, hcar]
  · exact fun a ha h => interleave_getD_untouched hbd hcar ha h
  · exact fun i r hi hr => interleave_getLsbD_high hbd hcar h8 (hi.trans_le (bitHeight_le _ _ _ hn hfit)) hr

/-! ## Deinterleaving fewer bits -/

/-- Settles O19: the stream read from an interleaved carrier is the payload's. -/
theorem deinterleaveOfAPrefix : Obligations.DeinterleaveOfAPrefix := by
  unfold Obligations.DeinterleaveOfAPrefix
  intro car pay n bd S nb trunc hn h8 hbd hcar hfit hnb
  rw [deinterleave_eq, lsbStream_interleave trunc hn hbd hcar hfit h8 hnb]

end Sys2Proof.Machine

/-! What a command may write: its code and its tag registers (R107, R108, 10_state.md section 5), the inputs it keeps
(10_state.md section 7), and the repetition of an abort (R117). -/

namespace Sys2Proof.Machine

/-! ## The tag registers, command by command -/

/-- The tag registers a command that ends with a given code may have written: HIDE writes TAGW, RCV writes TAGW and CLAIMED,
and with an abort's code each has done so only when it aborts in its own check (R98, R101, R108). -/
inductive TagWrites (s : State) : Instr → Code → State → Prop
  | none (i : Instr) (c : Code) : TagWrites s i c s
  | hide (n bd tw : Nat) {c : Code} (hc : c = .ok ∨ c = .capacityExceeded) : TagWrites s (.hide n bd) c (s.setTagw tw)
  | rcv (n bd tw cl : Nat) {c : Code} (hc : c = .ok ∨ c = .corruptedCarrier) :
      TagWrites s (.rcv n bd) c ((s.setTagw tw).setClaimed cl)

/-- The two ways a command ends: an abort with `c`, or, when `c` is `ok`, a delivered result, on top of the state `s1`. -/
def EndsOn (c : Code) (s1 : State) (o : Answer) : Prop :=
  c ≠ .ok ∧ o = .next (aborted c s1) ∨ c = .ok ∧ ∃ len r, o = .next (delivered len r s1)

/-- Either way the tag registers are those reached before the end (R76, R115). -/
theorem EndsOn.tags {c : Code} {s1 : State} {o : Answer} (h : EndsOn c s1 o) :
    ∃ t, o = .next t ∧ t.tagw = s1.tagw ∧ t.claimed = s1.claimed ∧ t.status = c.statusWord := by
  rcases h with ⟨-, h⟩ | ⟨rfl, len, r, h⟩
  · exact ⟨_, h, rfl, rfl, rfl⟩
  · exact ⟨_, h, delivered_tagw len r s1, delivered_claimed len r s1, rfl⟩

/-- Every command ends with one code, on top of the tag registers' writes it makes (R107, R108). -/
theorem exec_endsOn (i : Instr) (s : State) : ∃ c s1, TagWrites s i c s1 ∧ EndsOn c s1 (exec i s) := by
  rcases failedCheck_cases (usesPayload i) i.nlsb i.bdepth s with ⟨c, hf⟩ | h
  · refine ⟨c, s, .none i c, .inl ⟨?_, exec_failedCheck i s c hf⟩⟩
    rcases failedCheck_code _ _ _ _ _ hf with rfl | rfl <;> decide
  cases i with
  | ilv n bd =>
    rcases Nat.lt_or_ge (s.sampleCount * n) (8 * s.payloadLength) with hc | hc
    · exact ⟨_, s, .none _ _, .inl ⟨by decide, execIlv_capacity n bd s h hc⟩⟩
    · exact ⟨_, s, .none _ _, .inr ⟨rfl, _, _, execIlv_done n bd s h hc⟩⟩
  | ilvt n bd =>
    rcases Nat.lt_or_ge (s.sampleCount * n) (8 * s.payloadLength) with hc | hc
    · exact ⟨_, s, .none _ _, .inl ⟨by decide, execIlvt_capacity n bd s h hc⟩⟩
    · exact ⟨_, s, .none _ _, .inr ⟨rfl, _, _, execIlvt_done n bd s h hc⟩⟩
  | dlv n bd =>
    rcases Nat.lt_or_ge (s.sampleCount * n) s.bitCount with hc | hc
    · exact ⟨_, s, .none _ _, .inl ⟨by decide, execDlv_short n bd s h hc⟩⟩
    · exact ⟨_, s, .none _ _, .inr ⟨rfl, _, _, execDlv_done n bd s h hc⟩⟩
  | hide n bd =>
    rcases Nat.lt_or_ge (s.capacityBits n) (8 * (tagWidth (s.capacityBits n) + s.payloadLength)) with hc | hc
    · exact ⟨_, _, .hide n bd _ (.inr rfl), .inl ⟨by decide, execHide_capacity n bd s h hc⟩⟩
    · exact ⟨_, _, .hide n bd _ (.inl rfl), .inr ⟨rfl, _, _, execHide_done n bd s h hc⟩⟩
  | rcv n bd =>
    rcases Nat.lt_or_ge (s.capacityBits n) (8 * tagWidth (s.capacityBits n)) with hw | hw
    · exact ⟨_, _, .rcv n bd _ _ (.inr rfl), .inl ⟨by decide, execRcv_noTag n bd s h hw⟩⟩
    rcases Nat.lt_or_ge (s.capacityBits n) (8 * (tagWidth (s.capacityBits n) + s.claim n bd)) with hc | hc
    · exact ⟨_, _, .rcv n bd _ _ (.inr rfl), .inl ⟨by decide, execRcv_corrupted n bd s h hw hc⟩⟩
    · exact ⟨_, _, .rcv n bd _ _ (.inl rfl), .inr ⟨rfl, _, _, execRcv_done n bd s h hc⟩⟩

/-- A command with no tag registers to write keeps both, whatever its code. -/
theorem exec_keeps_tags {i : Instr} {s : State} (hi : ∀ c s1, TagWrites s i c s1 → s1 = s) :
    ∃ t, exec i s = .next t ∧ t.tagw = s.tagw ∧ t.claimed = s.claimed := by
  obtain ⟨c, s1, k, hend⟩ := exec_endsOn i s
  obtain rfl := hi c s1 k
  obtain ⟨t, ht, htagw, hclaimed, -⟩ := hend.tags
  exact ⟨t, ht, htagw, hclaimed⟩

/-- Settles O38: of the five commands only HIDE and RCV write a tag register, and only RCV writes CLAIMED. -/
theorem tagRegistersAreFramingOnly : Obligations.TagRegistersAreFramingOnly := by
  unfold Obligations.TagRegistersAreFramingOnly
  intro n bd s
  refine ⟨exec_keeps_tags ?_, exec_keeps_tags ?_, exec_keeps_tags ?_, ?_⟩
  case refine_4 =>
    obtain ⟨c, s1, k, hend⟩ := exec_endsOn (.hide n bd) s
    obtain ⟨t, ht, -, hclaimed, -⟩ := hend.tags
    cases k with
    | none | hide => exact ⟨t, ht, hclaimed⟩
  all_goals
    rintro c s1 ⟨⟩
    rfl

/-! ## What an abort leaves -/

/-- The exact frame of an abort (R108). -/
theorem execWord_aborted_frame {w : Word} {s t : State} (h : execWord w s = .next t) (hst : t.status ≠ 0#32) :
    t = { s with status := t.status, rlen := 0#32, tagw := t.tagw, claimed := t.claimed } := by
  rcases execWord_cases w s with ⟨c, s1, -, ⟨⟨tw, cl, rfl⟩, -⟩, h1⟩ | ⟨len, r, s1, -, -, -, h1⟩
  · rw [h1] at h
    cases h
    rfl
  · rw [h1] at h
    cases h
    exact absurd rfl hst

theorem statusWord_mem (c : Code) : c.statusWord ∈ [0#32, 1#32, 2#32, 3#32, 4#32, 5#32] := by cases c <;> decide

/-- Settles O32: the code names the end, and an abort keeps all but what its command has written by then. -/
theorem everyCommandEndsWithOneCode : Obligations.EveryCommandEndsWithOneCode := by
  unfold Obligations.EveryCommandEndsWithOneCode
  intro w s
  cases hw : decode w with
  | error e =>
    have h := execWord_error w e s hw
    exact ⟨_, h, statusWord_mem _, fun _ => ⟨rfl, fun hne => absurd rfl hne, fun hne => absurd rfl hne⟩⟩
  | ok i =>
    obtain ⟨c, s1, k, hend⟩ := exec_endsOn i s
    rw [← execWord_ok w i s hw] at hend
    obtain ⟨t, ht, htagw, hclaimed, hcode⟩ := hend.tags
    refine ⟨t, ht, hcode ▸ statusWord_mem c, fun hst => ⟨execWord_aborted_frame ht hst, ?_⟩⟩
    have hc : c ≠ .ok := by rintro rfl; exact hst hcode
    rw [htagw, hclaimed, hcode]
    cases k with
    | none => exact ⟨fun hne => absurd rfl hne, fun hne => absurd rfl hne⟩
    | hide n bd tw hown =>
      obtain rfl := hown.resolve_left hc
      exact ⟨fun _ => .inl ⟨n, bd, rfl, rfl⟩, fun hne => absurd rfl hne⟩
    | rcv n bd tw cl hown =>
      obtain rfl := hown.resolve_left hc
      exact ⟨fun _ => .inr ⟨n, bd, rfl, rfl⟩, fun _ => ⟨n, bd, rfl, rfl⟩⟩

/-- Settles O34: an abort leaves the inputs as they were, so the second run ends as the first did, and there is nothing left
for it to change. -/
theorem repeatedAbortIsTheSame : Obligations.RepeatedAbortIsTheSame := by
  unfold Obligations.RepeatedAbortIsTheSame
  intro w s t hrun hst
  have hframe := execWord_aborted_frame hrun hst
  have e : SameInputs s t := by
    rw [hframe]
    exact ⟨rfl, rfl, rfl, fun _ _ => rfl, fun _ _ => rfl⟩
  obtain ⟨t', u, ht', hu, k⟩ := execWord_alike e w
  obtain rfl : t = t' := by
    rw [hrun] at ht'
    exact Host.Outcome.next.inj ht'
  have htagw : u.tagw = t.tagw := k.tagw.elim Eq.symm And.right
  have hclaimed : u.claimed = t.claimed := k.claimed.elim Eq.symm And.right
  have hrlen : t.rlen = 0#32 := by rw [hframe]
  have hu0 := execWord_aborted_frame hu (k.status ▸ hst)
  rw [hu, hu0, htagw, hclaimed, ← k.status, ← hrlen]

/-! ## What every command keeps -/

/-- Settles O35: every command aborts or delivers. -/
theorem everyCommandCompletes : Obligations.EveryCommandCompletes := by
  unfold Obligations.EveryCommandCompletes
  intro i s
  obtain ⟨_, _, _, hend⟩ := exec_endsOn i s
  obtain ⟨t, ht, -⟩ := hend.tags
  exact ⟨t, ht⟩

theorem TagsWritten.inputsKept {s s1 : State} (k : TagsWritten s s1) : InputsKept s s1 := by
  obtain ⟨⟨tw, cl, rfl⟩, -⟩ := k
  exact ⟨rfl, rfl, rfl, fun _ => rfl, fun _ => rfl, rfl, rfl, rfl⟩

/-- A command keeps its inputs and writes OBUF below the RLEN it leaves only (R27, R30). -/
theorem execWord_keeps_inputs (w : Word) (s : State) : ∃ t, execWord w s = .next t ∧ InputsKept s t ∧
    t.rlen.toNat ≤ Config.bufSize ∧ ∀ a, t.rlen.toNat ≤ a → t.byteAt .obuf a = s.byteAt .obuf a := by
  rcases execWord_cases w s with ⟨c, s1, -, k, h⟩ | ⟨len, r, s1, hr, hl, k, h⟩
  · exact ⟨_, h, k.inputsKept.trans (inputsKept_aborted c s1), Nat.zero_le _,
      fun a _ => (aborted_byteAt c s1 .obuf a).trans (k.byteAt_eq .obuf a)⟩
  · have hok := k.succeeded len r hr hl
    exact ⟨_, h, hok.inputs, hok.rlen.trans_le hl, fun a ha => hok.obufRest a (hok.rlen ▸ ha)⟩

theorem inputsKept_of_execWord {w : Word} {s t : State} (h : execWord w s = .next t) : InputsKept s t := by
  obtain ⟨u, hu, hkept, -⟩ := execWord_keeps_inputs w s
  rw [h] at hu
  cases hu
  exact hkept

/-- Settles O37: an abort writes registers only, a delivered result only the bytes RLEN counts. -/
theorem commandsKeepTheirInputs : Obligations.CommandsKeepTheirInputs := execWord_keeps_inputs

end Sys2Proof.Machine

/-! The step and the state: the invariant every step keeps (R32), what a transaction may write (R51, 10_state.md sections 2, 5
and 7), the run of a command word (R72), and reset (R125). -/

namespace Sys2Proof.Machine

/-! ## The write of a command word -/

/-- The write to CMD runs `Exec` to its end and answers OK (R44). -/
theorem serve_cmdWrite (w : Word) (s : State) :
    ∃ t, execWord w s = .next t ∧ serve (cmdWrite w) s = .next (t.setReply .ok) := by
  obtain ⟨t, ht⟩ := execWord_next w s
  exact ⟨t, ht, serveWrite_cmd ht⟩

theorem step_cmdWrite {s : State} {w : Word} {rest : List Request} (h : s.requests = cmdWrite w :: rest) :
    ∃ t, execWord w (s.setRequests rest) = .next t ∧ step s = .next (t.setReply .ok) := by
  rw [step_cons s _ rest h]
  exact serve_cmdWrite w _

theorem tableWord_toNat (w : Word) : tableWord 32 w.toNat = w := by
  rw [tableWord, Nat.mod_eq_of_lt w.isLt, BitVec.ofNat_toNat, BitVec.setWidth_eq]

/-- Settles O50: `Exec` of a word that decodes is its command; `withFetchWord` puts that word's write at the head. -/
theorem stepRunsTheDecodedCommand : Obligations.StepRunsTheDecodedCommand := by
  unfold Obligations.StepRunsTheDecodedCommand
  intro s w i rest hw
  constructor
  · intro hreq
    obtain ⟨t, ht, hstep⟩ := step_cmdWrite hreq
    exact ⟨t, (execWord_ok w i _ hw).symm.trans ht, hstep⟩
  · have hreq : (s.withFetchWord 32 w.toNat).requests = cmdWrite w :: s.requests := by
      rw [State.withFetchWord, tableWord_toNat, State.setRequests_requests]
    obtain ⟨t, ht, hstep⟩ := step_cmdWrite hreq
    exact ⟨t, (execWord_ok w i _ hw).symm.trans ht, hstep⟩

/-! ## The invariant -/

/-- Registers at 0 and nothing listed: the invariant, whatever the buffers read as (R31, R32). -/
theorem reset_inv (g : Background) (q : List Request) : State.Inv { State.reset with background := g, requests := q } where
  statusReserved := statusReserved_statusWord .ok
  statusCode := statusCode_statusWord_le .ok
  rlen := Nat.zero_le _
  tagw := Nat.zero_le _
  abortEmpty _ := rfl
  cbuf := wf_nil _
  pbuf := wf_nil _
  obuf := wf_nil _

/-- `Exec` keeps the invariant: it aborts or delivers, on top of the tag registers' writes (R32). -/
theorem State.Inv.execWord {w : Word} {s t : State} (hs : s.Inv) (h : execWord w s = .next t) : t.Inv := by
  rcases execWord_cases w s with ⟨c, s1, -, k, h1⟩ | ⟨len, r, s1, hr, hl, k, h1⟩
  · rw [h1] at h
    cases h
    exact (hs.tagsWritten k).aborted c
  · rw [h1] at h
    cases h
    exact (hs.tagsWritten k).delivered len r hr hl

/-- A transaction or a reset, served, keeps the invariant (R32). -/
theorem State.Inv.serve {r : Request} {s t : State} (hs : s.Inv) (h : serve r s = .next t) : t.Inv := by
  cases r with
  | read sel size off =>
    obtain ⟨rep, hrep⟩ := serveRead_eq sel size off s
    rw [Machine.serve, hrep] at h
    cases h
    exact hs.setReply rep
  | write sel d off =>
    rw [Machine.serve] at h
    rcases serveWrite_cases sel d off s with
      h1 | ⟨v, h1⟩ | ⟨v, h1⟩ | ⟨v, h1⟩ | ⟨sp, a, b, ha, h1⟩ | ⟨w, u, h1, hu, -⟩ <;>
      (rw [h1] at h; cases h)
    · exact hs.setReply _
    · exact (hs.setScount v).setReply _
    · exact (hs.setPlen v).setReply _
    · exact (hs.setNbits v).setReply _
    · exact (hs.putBytes sp a [b] ha).setReply _
    · exact (hs.execWord hu).setReply _
  | reset =>
    cases h
    exact reset_inv _ _

/-- Settles O59: a step serves one transaction, or none. -/
theorem stepKeepsTheInvariant : Obligations.StepKeepsTheInvariant := by
  unfold Obligations.StepKeepsTheInvariant
  intro s t hs hstep
  cases hreq : s.requests with
  | nil =>
    rw [step_nil s hreq] at hstep
    cases hstep
    exact hs
  | cons r rest =>
    rw [step_cons s r rest hreq] at hstep
    exact (hs.setRequests rest).serve hstep

/-- Settles O60: the first reset is one of those states. -/
theorem resetHasTheInvariant : Obligations.ResetHasTheInvariant := reset_inv (.powerUp 0) []

/-! ## One transaction a step -/

/-- Serving a transaction completes, and leaves those after it to be served (R48, R51). -/
theorem serve_next (r : Request) (s : State) : ∃ t, serve r s = .next t ∧ t.requests = s.requests := by
  cases r with
  | read sel size off =>
    obtain ⟨rep, hrep⟩ := serveRead_eq sel size off s
    exact ⟨_, rfl, by rw [hrep, State.setReply_requests]⟩
  | write sel d off =>
    rcases serveWrite_cases sel d off s with
      h | ⟨v, h⟩ | ⟨v, h⟩ | ⟨v, h⟩ | ⟨sp, a, b, -, h⟩ | ⟨w, u, h, hu, -⟩
    · exact ⟨_, h, rfl⟩
    · exact ⟨_, h, rfl⟩
    · exact ⟨_, h, rfl⟩
    · exact ⟨_, h, rfl⟩
    · exact ⟨_, h, State.putBytes_requests s sp a [b]⟩
    · exact ⟨_, h, (inputsKept_of_execWord hu).requests⟩
  | reset => exact ⟨_, rfl, rfl⟩

/-- Settles O57: the step takes the oldest transaction off and serves it. -/
theorem stepServesTheOldestTransaction : Obligations.StepServesTheOldestTransaction := by
  unfold Obligations.StepServesTheOldestTransaction
  refine ⟨fun s r rest hreq => ?_, step_nil⟩
  rw [step_cons s r rest hreq]
  exact serve_next r _

/-- Settles O36: with no transaction the step is idle, and serving one completes. -/
theorem everyStepCompletes : Obligations.EveryStepCompletes := by
  unfold Obligations.EveryStepCompletes
  intro s
  cases hreq : s.requests with
  | nil => exact ⟨s, step_nil s hreq⟩
  | cons r rest =>
    obtain ⟨t, ht, -⟩ := serve_next r (s.setRequests rest)
    exact ⟨t, (step_cons s r rest hreq).trans ht⟩

/-! ## Which events write -/

/-- The four result registers hold the same values in both states (R22). -/
structure ResultsKept (s t : State) : Prop where
  status : t.status = s.status
  rlen : t.rlen = s.rlen
  tagw : t.tagw = s.tagw
  claimed : t.claimed = s.claimed

/-- A host write that is not to CMD writes no result register (R44, R45). -/
theorem serveWrite_resultsKept {sel off : Nat} {d : Datum} (s : State) (h : ∀ w, Request.write sel d off ≠ cmdWrite w) :
    ∃ t, serveWrite sel d off s = .next t ∧ ResultsKept s t := by
  rcases serveWrite_cases sel d off s with
    h1 | ⟨v, h1⟩ | ⟨v, h1⟩ | ⟨v, h1⟩ | ⟨sp, a, b, -, h1⟩ | ⟨w, u, -, -, hw⟩
  · exact ⟨_, h1, rfl, rfl, rfl, rfl⟩
  · exact ⟨_, h1, rfl, rfl, rfl, rfl⟩
  · exact ⟨_, h1, rfl, rfl, rfl, rfl⟩
  · exact ⟨_, h1, rfl, rfl, rfl, rfl⟩
  · exact ⟨_, h1, by constructor <;> simp⟩
  · exact absurd hw (h w)

/-- Settles O58: a write to CMD writes what a command writes, any other write leaves the result registers alone, and a read
changes the reply only. -/
theorem onlyTheseEventsWrite : Obligations.OnlyTheseEventsWrite := by
  unfold Obligations.OnlyTheseEventsWrite
  intro s r rest hreq hreset
  rw [step_cons s r rest hreq]
  by_cases hcmd : ∃ w, r = cmdWrite w
  · obtain ⟨w, rfl⟩ := hcmd
    obtain ⟨t, ht, hserve⟩ := serve_cmdWrite w (s.setRequests rest)
    obtain ⟨hscount, hplen, hnbits, hcbuf, hpbuf, -, -, -⟩ := inputsKept_of_execWord ht
    exact ⟨_, hserve, fun h => absurd rfl (h w), fun _ => ⟨hscount, hplen, hnbits, fun a => ⟨hcbuf a, hpbuf a⟩⟩⟩
  cases r with
  | read sel size off =>
    obtain ⟨rep, hrep⟩ := serveRead_eq sel size off (s.setRequests rest)
    rw [serve, hrep]
    exact ⟨_, rfl, fun _ => ⟨rfl, rfl, rfl, rfl⟩, fun _ => ⟨rfl, rfl, rfl, fun _ => ⟨rfl, rfl⟩⟩⟩
  | write sel d off =>
    obtain ⟨t, ht, k⟩ := serveWrite_resultsKept (s.setRequests rest) (not_exists.1 hcmd)
    refine ⟨t, ht, fun _ => ⟨k.status, k.rlen, k.tagw, k.claimed⟩, ?_⟩
    rintro (h | ⟨_, _, _, ⟨⟩⟩)
    exact absurd h hcmd
  | reset => exact absurd rfl hreset

/-! ## MemRead and MemWrite -/

/-- Settles O49: inside the bounds both primitives have their meaning, and read after write gives every byte. -/
theorem memReadAndMemWrite : Obligations.MemReadAndMemWrite := by
  unfold Obligations.MemReadAndMemWrite
  intro sp a n v s hbound hv
  refine ⟨fun k => memRead_eq sp a n s k hbound, s.bytesAt_getD sp a n, _, memWrite_eq sp a n v s hv hbound,
    fun k hk => ?_, fun sp' x hother => ?_, State.putBytes_eq s sp a v⟩
  · rw [State.putBytes_byteAt, if_pos ⟨rfl, by omega, by omega⟩, Nat.add_sub_cancel_left]
  · rw [State.putBytes_byteAt, if_neg]
    rintro ⟨rfl, hlow, hhigh⟩
    rcases hother with hne | hout
    · exact hne rfl
    · omega

/-! ## abort and reset -/

/-- Settles O31: the number of each code fits STATUS.CODE. -/
theorem abortWritesStatusAndRlen : Obligations.AbortWritesStatusAndRlen := by
  unfold Obligations.AbortWritesStatusAndRlen
  exact fun c s => ⟨abort_eq c s, statusCode_statusWord c, statusReserved_statusWord c⟩

/-- A byte of a buffer with none listed reads as the background's (R31). -/
theorem State.byteAt_of_mem_nil {s : State} {sp : Space} (a : Nat) (h : s.mem sp = []) :
    s.byteAt sp a = s.background.byte sp a := by
  rw [State.byteAt, h]
  rfl

/-- Settles O55: a reset replaces all but the requests that wait. -/
theorem resetEventClearsRegisters : Obligations.ResetEventClearsRegisters := by
  unfold Obligations.ResetEventClearsRegisters
  intro s rest hreq
  refine ⟨_, step_cons s _ rest hreq, rfl, rfl, rfl, rfl, rfl, rfl, rfl, rfl, fun k hk sp a => ?_⟩
  rw [State.byteAt_of_mem_nil a (by cases sp <;> rfl), afterReset_background, State.setRequests_background, hk]
  rfl

/-- Settles O56: no byte is listed, and nothing is issued. -/
theorem resetStateRegisters : Obligations.ResetStateRegisters := by
  unfold Obligations.ResetStateRegisters
  refine ⟨rfl, rfl, rfl, rfl, rfl, rfl, rfl, fun sp a => ?_, step_nil _ rfl⟩
  exact State.byteAt_of_mem_nil a (by cases sp <;> rfl)

end Sys2Proof.Machine

/-! What the results of two commands, or of one command from two states, have in common (R57, R78, R88), and the framing laws
derived in 42_framing.md section 4. -/

namespace Sys2Proof.Machine

/-! ## ILVT and the samples it covers -/

/-- The common checks look at SCOUNT and PLEN only (R109). -/
theorem failedCheck_congr {s1 s2 : State} (hS : s2.sampleCount = s1.sampleCount) (hL : s2.payloadLength = s1.payloadLength)
    (p : Bool) (n bd : Nat) : failedCheck p n bd s2 = failedCheck p n bd s1 := by
  simp only [failedCheck, hS, hL]

/-- The truncated result depends on the samples it covers only (R57, R77). -/
theorem interleave_true_congr {car car' pay : List Byte} {n bd S : Nat} (hn : 1 ≤ n) (hbd : 1 ≤ bd)
    (hcar : car.length = S * bd) (hcar' : car'.length = S * bd) (hfit : 8 * pay.length ≤ S * n)
    (h : ∀ a, a < bitHeight pay.length n * bd → car.getD a 0#8 = car'.getD a 0#8) :
    interleave car pay n true bd = interleave car' pay n true bd := by
  have hlen := length_interleave_trunc car pay n bd S hn hcar hfit
  have hlen' := length_interleave_trunc car' pay n bd S hn hcar' hfit
  have hle : bitHeight pay.length n * bd ≤ S * bd := Nat.mul_le_mul_right bd (bitHeight_le _ n S hn hfit)
  apply bytes_ext_getD (hlen.trans hlen'.symm)
  intro a ha
  rw [hlen] at ha
  have haS : a < S * bd := ha.trans_le hle
  rw [interleave_true_getD _ _ _ _ a ha, interleave_true_getD _ _ _ _ a ha,
    interleave_full_getD car pay n bd hbd a (hcar ▸ haS), interleave_full_getD car' pay n bd hbd a (hcar' ▸ haS)]
  have hlow : a / bd * bd < bitHeight pay.length n * bd := (Nat.div_mul_le_self a bd).trans_lt ha
  rw [touchedByte, touchedByte, h _ hlow, h a ha]

/-- Settles O40: both runs pass the same checks, read the same payload, and cover the same samples. -/
theorem ilvtReadsItsPrefixOnly : Obligations.IlvtReadsItsPrefixOnly := by
  unfold Obligations.IlvtReadsItsPrefixOnly
  intro n bd s1 s2 hscount hplen hpbuf hcbuf
  have hS : s2.sampleCount = s1.sampleCount := congrArg BitVec.toNat hscount.symm
  have hL : s2.payloadLength = s1.payloadLength := congrArg BitVec.toNat hplen.symm
  have hpay : s2.payload = s1.payload := by
    rw [State.payload, hL]
    refine State.bytesAt_congr fun k hk => ?_
    rw [Nat.zero_add, hpbuf k hk]
  suffices hsame : AnswersAlike s1 s2 (exec (.ilvt n bd) s1) (exec (.ilvt n bd) s2) by
    obtain ⟨t1, t2, h1, h2, k⟩ := hsame
    exact ⟨t1, t2, h1, h2, k.status, k.rlen, k.result⟩
  rcases failedCheck_cases true n bd s1 with ⟨c, hf⟩ | h
  · exact answersAlike_aborted (.unwritten s1 s2) (exec_failedCheck (.ilvt n bd) s1 c hf)
      (exec_failedCheck (.ilvt n bd) s2 c ((failedCheck_congr hS hL true n bd).trans hf))
  have h' : ChecksPass true n bd s2 := by
    rw [← failedCheck_none_iff, failedCheck_congr hS hL, failedCheck_none_iff]
    exact h
  rcases Nat.lt_or_ge (s1.sampleCount * n) (8 * s1.payloadLength) with hc | hc
  · exact answersAlike_aborted (.unwritten s1 s2) (execIlvt_capacity n bd s1 h hc)
      (execIlvt_capacity n bd s2 h' (by rwa [hS, hL]))
  · have hfit : 8 * s1.payload.length ≤ s1.sampleCount * n := by rwa [State.length_payload]
    have hbd := (depthSupported_bounds bd h.width).1
    have hle : bitHeight s1.payloadLength n * bd ≤ s1.sampleCount * bd :=
      Nat.mul_le_mul_right bd (bitHeight_le _ n _ h.nlsbLow hc)
    have hres : interleave (s2.carrier bd) s1.payload n true bd = interleave (s1.carrier bd) s1.payload n true bd := by
      refine interleave_true_congr h.nlsbLow hbd ?_ (s1.length_carrier bd) hfit fun a ha => ?_
      · rw [State.length_carrier, hS]
      · rw [State.length_payload] at ha
        rw [s1.carrier_getD bd a (ha.trans_le hle), s2.carrier_getD bd a (hS ▸ ha.trans_le hle)]
        exact (hcbuf a ha).symm
    have hlen := length_interleave_trunc (s1.carrier bd) s1.payload n bd _ h.nlsbLow (s1.length_carrier bd) hfit
    have hdone := execIlvt_done n bd s2 h' (by rwa [hS, hL])
    rw [hL, hpay, hres] at hdone
    rw [State.length_payload] at hlen
    exact answersAlike_delivered (.unwritten s1 s2) hlen (execIlvt_done n bd s1 h hc) hdone

/-- Settles O42: ILV delivers the full result, ILVT the truncated one. -/
theorem ilvtIsAPrefixOfIlv : Obligations.IlvtIsAPrefixOfIlv := by
  unfold Obligations.IlvtIsAPrefixOfIlv
  intro n bd s h hc
  have hfit : 8 * s.payload.length ≤ s.sampleCount * n := by rwa [State.length_payload]
  have hle : bitHeight s.payloadLength n * bd ≤ s.sampleCount * bd :=
    Nat.mul_le_mul_right bd (bitHeight_le _ n _ h.nlsbLow hc)
  have hfull : (interleave (s.carrier bd) s.payload n false bd).length = s.sampleCount * bd := by simp
  have htrunc := length_interleave_trunc (s.carrier bd) s.payload n bd _ h.nlsbLow (s.length_carrier bd) hfit
  rw [State.length_payload] at htrunc
  refine ⟨_, _, execIlv_done n bd s h hc, execIlvt_done n bd s h hc, fun a ha => ?_⟩
  rw [delivered_byteAt _ _ s hfull a (ha.trans_le hle), delivered_byteAt _ _ s htrunc a ha, interleave_true_getD]
  rwa [State.length_payload]

/-! ## DLV and the low bytes it reads -/

/-- Settles O41: the bits asked for lie inside both carriers, in the low bytes the two states share. -/
theorem dlvReadsItsLowBytesOnly : Obligations.DlvReadsItsLowBytesOnly := by
  unfold Obligations.DlvReadsItsLowBytesOnly
  intro n bd s1 s2 h1 h2 hc1 hc2 hnbits hlow
  have hnb : s2.bitCount = s1.bitCount := congrArg BitVec.toNat hnbits.symm
  have hbd := (depthSupported_bounds bd h1.width).1
  have hin {s : State} (hc : s1.bitCount ≤ s.sampleCount * n) {i : Nat} (hi : i < ceilDiv s1.bitCount n) :
      i * bd < s.sampleCount * bd :=
    Nat.mul_lt_mul_of_pos_right (hi.trans_le ((ceilDiv_le_iff _ n _ h1.nlsbLow).2 hc)) hbd
  have hres : deinterleave (s2.carrier bd) s1.bitCount n bd = deinterleave (s1.carrier bd) s1.bitCount n bd := by
    refine deinterleave_congr _ _ _ n bd fun i hi => ?_
    rw [s1.carrier_getD bd _ (hin hc1 hi), s2.carrier_getD bd _ (hin (hnb ▸ hc2) hi), hlow i hi]
  have hdone := execDlv_done n bd s2 h2 hc2
  rw [hnb, hres] at hdone
  obtain ⟨t1, t2, ht1, ht2, k⟩ := answersAlike_delivered (.unwritten s1 s2) (length_deinterleave _ _ n bd h1.nlsbLow)
    (execDlv_done n bd s1 h1 hc1) hdone
  exact ⟨t1, t2, ht1, ht2, k.rlen, k.result⟩

/-! ## The capacity and the tag -/

/-- Settles O21: the tag is too wide at capacities 1 to 7 only, and a frame that fits has a length below the capacity. -/
theorem tagFitsAndHoldsTheLength : Obligations.TagFitsAndHoldsTheLength := by
  unfold Obligations.TagFitsAndHoldsTheLength
  intro cap _
  have hwide := lt_tagWidth_iff cap
  exact ⟨by omega, fun len => lt_two_pow_of_frame_fits⟩

/-- Settles O44: HIDE's code is its capacity check's, and the tag alone fits unless the capacity is 1 to 7. -/
theorem capacityBoundary : Obligations.CapacityBoundary := by
  unfold Obligations.CapacityBoundary
  intro n bd s h
  obtain ⟨t, ht, hst⟩ := exec_endsWith_bodyCode (i := .hide n bd) h
  have hwide := lt_tagWidth_iff (s.sampleCount * n)
  have hzero : s.sampleCount * n = 0 → tagWidth (s.sampleCount * n) = 0 := by intro h0; rw [h0]; rfl
  have hfits (hle : 8 * (tagWidth (s.sampleCount * n) + s.payloadLength) ≤ s.sampleCount * n) : t.status = 0#32 := by
    rw [hst, bodyCode, if_neg (Nat.not_lt.2 hle)]; rfl
  have habort (hlt : s.sampleCount * n < 8 * (tagWidth (s.sampleCount * n) + s.payloadLength)) : t.status = 1#32 := by
    rw [hst, bodyCode, if_pos hlt]; rfl
  refine ⟨t, ht, fun h8 => ⟨fun hL => hfits ?_, fun hL => habort ?_⟩,
    fun h0 => ⟨fun hL => hfits ?_, fun hL => habort ?_⟩, fun h1 h7 => habort ?_⟩ <;> omega

/-- Settles O46: once the tag is read, the claimed length is refused or delivered. -/
theorem rcvSignalsOrBounds : Obligations.RcvSignalsOrBounds := by
  unfold Obligations.RcvSignalsOrBounds
  intro n bd s h
  rcases Nat.lt_or_ge (s.capacityBits n) (8 * tagWidth (s.capacityBits n)) with hw | hw
  · exact ⟨_, execRcv_noTag n bd s h hw, .inl rfl⟩
  rcases Nat.lt_or_ge (s.capacityBits n) (8 * (tagWidth (s.capacityBits n) + s.claim n bd)) with hc | hc
  · exact ⟨_, execRcv_corrupted n bd s h hw hc, .inl rfl⟩
  · have hok := succeeded_recovered h hc
    refine ⟨_, execRcv_done n bd s h hc, .inr ⟨hok.status, ?_, ?_⟩⟩
    · rw [delivered_claimed]; rfl
    · rw [hok.rlen]
      unfold State.capacityBits at hc
      omega

/-! ## HIDE and RCV as ILV and DLV of the frame -/

/-- States with one SCOUNT and the same carrier bytes give a command the same carrier (R76). -/
theorem State.carrier_congr {s u : State} {bd : Nat} (hS : u.sampleCount = s.sampleCount)
    (h : ∀ a, a < s.sampleCount * bd → u.byteAt .cbuf a = s.byteAt .cbuf a) : u.carrier bd = s.carrier bd := by
  rw [State.carrier, hS]
  refine State.bytesAt_congr fun k hk => ?_
  rw [Nat.zero_add, h k hk]

/-- Settles O47: the frame fits PBUF, and ILV interleaves it into the same carrier. -/
theorem hideIsIlvOfTheFrame : Obligations.HideIsIlvOfTheFrame := by
  unfold Obligations.HideIsIlvOfTheFrame
  intro n bd s u h hc hscount hlen hcbuf hpbuf
  have hS : u.sampleCount = s.sampleCount := congrArg BitVec.toNat hscount
  have hcap : 8 * u.payloadLength ≤ u.sampleCount * n := by rwa [hlen, hS]
  have hfits : u.payloadLength ≤ Config.bufSize := (h.bytes_le _ (by rwa [hlen])).trans h.sampleCount_le
  have hu : ChecksPass true n bd u := ⟨h.width, h.nlsbLow, h.nlsbHigh, by rw [hS]; exact h.carrier, fun _ => hfits⟩
  have hpay : u.payload = frame s.payload (tagWidth (s.capacityBits n)) := hpbuf
  have hdone := execIlv_done n bd u hu hcap
  rw [hS, State.carrier_congr hS hcbuf, hpay] at hdone
  obtain ⟨t, v, ht, hv, k⟩ := answersAlike_delivered (.unwritten (s.setTagw _) u) (by simp) (execHide_done n bd s h hc) hdone
  exact ⟨t, v, ht, hv, k.rlen, k.result⟩

/-- RCV that ends with STATUS 0 has passed its check on the claimed length (R113). -/
theorem claim_fits_of_exec_rcv {n bd : Nat} {s t : State} (h : ChecksPass false n bd s) (ht : exec (.rcv n bd) s = .next t)
    (hst : t.status = 0#32) : 8 * (tagWidth (s.capacityBits n) + s.claim n bd) ≤ s.capacityBits n := by
  obtain ⟨t', ht', hcode⟩ := exec_endsWith_bodyCode (i := .rcv n bd) h
  rw [ht] at ht'
  cases ht'
  by_contra hlt
  have habort : bodyCode s (.rcv n bd) = .corruptedCarrier := if_pos (Nat.not_le.1 hlt)
  rw [hst, habort] at hcode
  exact absurd hcode (by decide)

/-- Byte `k` of what RCV recovers is byte `tw + k` of the deinterleaved frame (R101). -/
theorem State.recovered_getD (s : State) (n bd : Nat) {k : Nat} (hk : k < s.claim n bd) :
    (s.recovered n bd).getD k 0#8 =
      (deinterleave (s.carrier bd) (8 * (tagWidth (s.capacityBits n) + s.claim n bd)) n bd).getD
        (tagWidth (s.capacityBits n) + k) 0#8 := by
  rw [State.recovered, List.getD_eq_getElem?_getD, List.getElem?_take_of_lt hk, List.getElem?_drop,
    ← List.getD_eq_getElem?_getD]

/-- Settles O48: DLV deinterleaves the whole frame, of which RCV delivers the part after the tag. -/
theorem rcvIsASliceOfDlv : Obligations.RcvIsASliceOfDlv := by
  unfold Obligations.RcvIsASliceOfDlv
  intro n bd s t u h ht hst hscount hcbuf hnb
  have hc := claim_fits_of_exec_rcv h ht hst
  obtain rfl := Host.Outcome.next.inj ((execRcv_done n bd s h hc).symm.trans ht)
  have hS : u.sampleCount = s.sampleCount := congrArg BitVec.toNat hscount
  have hu : ChecksPass false n bd u := ⟨h.width, h.nlsbLow, h.nlsbHigh, by rw [hS]; exact h.carrier, nofun⟩
  have hok := succeeded_recovered h hc
  have htagw := h.toNat_tagWidth
  have hclaimed := toNat_ofNat_of_le_bufSize _ (h.claim_le_bufSize hc)
  simp only [delivered_tagw, delivered_claimed, State.setClaimed_tagw, State.setClaimed_claimed, State.setTagw_tagw,
    htagw, hclaimed, hok.rlen] at hnb ⊢
  have hfit : u.bitCount ≤ u.sampleCount * n := by rw [hnb, hS]; exact hc
  have hlen := length_deinterleave (u.carrier bd) u.bitCount n bd h.nlsbLow
  have hbytes : ceilDiv u.bitCount 8 = tagWidth (s.capacityBits n) + s.claim n bd := by
    rw [hnb, ceilDiv_mul_self _ 8 (by decide)]
  have hdlv := delivered_spec _ _ u hlen (hu.ceilDiv_le_bufSize hfit)
  refine ⟨_, execDlv_done n bd u hu hfit, hdlv.status, hdlv.rlen.trans hbytes, fun k hk => ?_⟩
  rw [delivered_byteAt _ _ _ (length_recovered n bd s h.nlsbLow) k hk, s.recovered_getD n bd hk,
    delivered_byteAt _ _ u hlen _ (by omega), State.carrier_congr hS hcbuf, hnb]

/-! ## The parameters and bit_length -/

/-- Settles O9: `bitLength` is the lower adjoint of `2 ^ ·`. -/
theorem bitLengthIsLeast : Obligations.BitLengthIsLeast := by
  unfold Obligations.BitLengthIsLeast
  refine ⟨fun n => ⟨(bitLength_le_iff n _).1 le_rfl, fun k => (bitLength_le_iff n k).2⟩, rfl, ?_⟩
  have hle : bitLength 48 ≤ 6 := (bitLength_le_iff 48 6).2 (by decide)
  have hgt : ¬bitLength 48 ≤ 5 := fun h => absurd ((bitLength_le_iff 48 5).1 h) (by decide)
  omega

/-- Settles O28: the bounds hold for every value of the two free constants. -/
theorem supportedDepths : Obligations.SupportedDepths := by
  unfold Obligations.SupportedDepths
  refine ⟨rfl, rfl, rfl, rfl, rfl, fun bd hbd => ?_, bufSize_ge, bufSize_le⟩
  by_contra h
  have := depthSupported_bounds bd (Bool.eq_true_of_not_eq_false h)
  omega

end Sys2Proof.Machine
